-- ==== Sys2Proof/Word.lean ====
section
/-! DEFINITION. The words of the hardware (spec/00_scope.md rule R8). -/

namespace Sys2Proof

/-- A byte of either memory (R8). -/
abbrev Byte := BitVec 8

/-- A column value as the registers `E_LAST` and `D_LAST` hold it: 31 bits, unsigned (R8, `VAL_W`). -/
abbrev Value := BitVec 31

/-- A word at a value port: 32 bits (R8, `PORT_W`), unsigned at the encoder's input, two's complement at the
decoder's output. -/
abbrev Word := BitVec 32

/-- A command code, a status code or `D_FAULT`: 3 bits (R22, R89, R100, R106). -/
abbrev Code := BitVec 3

end Sys2Proof
end

