-- ==== Sys2Proof/Config.lean ====
section
/-! DEFINITION. The implementation parameters of the two blocks (spec/00_scope.md rule R7): fixed at construction,
changed by no operation and no reset. The encoder and the decoder have one configuration each, because nothing in
hardware makes them agree (R110, R132). -/

namespace Sys2Proof

/-- `VARIANT`: one of 1, 2, 3 (R7). Another number is no variant and names no machine. -/
inductive Variant where
  | v1
  | v2
  | v3
deriving DecidableEq, Repr

/-- The parameters of one `delta_encoder` (R7): `VARIANT`, `N`, the refresh interval `R`, and `BUF_CAP`, with `none`
for `BUF_CAP = ∞`. -/
structure EncConfig where
  variant : Variant
  n : Nat
  r : Nat
  bufCap : Option Nat
deriving DecidableEq, Repr

/-- The parameters of one `delta_decoder` (R7): `VARIANT`, `N`, the set `SIGNED` as a strictly rising list of columns,
and `SIGN_OFFSET`. -/
structure DecConfig where
  variant : Variant
  n : Nat
  signed : List Nat
  signOffset : Nat
deriving DecidableEq, Repr

/-- The domain of the encoder's parameters: `N ≥ 1` (R7) and `R < 2^32` (R18). -/
abbrev EncConfig.Valid (c : EncConfig) : Prop :=
  0 < c.n ∧ c.r < 2 ^ 32

/-- The domain of the decoder's parameters (R7): `N ≥ 1`, `SIGNED ⊆ {0 .. N-1}` (in its one listed form), and
`SIGN_OFFSET ≤ 2^31 - 1`. -/
abbrev DecConfig.Valid (c : DecConfig) : Prop :=
  0 < c.n ∧ (∀ i ∈ c.signed, i < c.n) ∧ c.signed.Pairwise (· < ·) ∧ c.signOffset < 2 ^ 31

/-- DESIGN CHOICE (unsafe, notes/assumptions/1.md): the parameters of the encoder in `State.reset`. The spec fixes
none; statements are about every configuration. These are those of the source's scenario S1. -/
def EncConfig.illustrative : EncConfig :=
  { variant := .v3, n := 1, r := 0, bufCap := none }

/-- DESIGN CHOICE (unsafe, notes/assumptions/1.md): the parameters of the decoder in `State.reset`, with the
illustrative `SIGN_OFFSET` of 92_eei_decisions.md D12. -/
def DecConfig.illustrative : DecConfig :=
  { variant := .v3, n := 1, signed := [], signOffset := 536870911 }

end Sys2Proof
end

