-- ==== Sys2Proof/Syntax.lean ====
section
/-! DEFINITION. The instructions: the seven wire forms of an encoded value (spec/30_encoding.md) and the eleven host
commands (spec/42_host_ops.md rule R89), one constructor for each row of spec/opcode_table.json. -/

namespace Sys2Proof

/-- The two blocks of the hardware (R3). -/
inductive Block where
  | encoder
  | decoder
deriving DecidableEq, Repr

/-- The seven wire forms (R44). -/
inductive Form where
  | raw
  | v1d3
  | v2d2
  | v2d3
  | v3d1
  | v3d2
  | v3d3
deriving DecidableEq, Repr

/-- An instruction, its operands taken out of its encoding. In a delta form `s` is the sign bit S (true = increase)
and `mag` the magnitude (R52). -/
inductive Instr where
  | raw (v : Value)
  | v1d3 (s : Bool) (mag : BitVec 22)
  | v2d2 (s : Bool) (mag : BitVec 13)
  | v2d3 (s : Bool) (mag : BitVec 21)
  | v3d1 (s : Bool) (mag : BitVec 5)
  | v3d2 (s : Bool) (mag : BitVec 12)
  | v3d3 (s : Bool) (mag : BitVec 20)
  | writeRow (row : List Word)
  | eReset
  | getData
  | getUsize
  | getCsize
  | getRatio
  | decompress (chunk : List Byte)
  | dGetUsize
  | dGetCsize
  | dGetRatio
  | dGetStatus
deriving DecidableEq, Repr

/-- What the host presents with a command (R100): the block addressed, `cmd_op`, the `cmd_row` bus as one number
(`row[c]` in bits 32c+31 .. 32c; read by `WRITE_ROW` only) and the bytes that follow on `in_data` (`cmd_len` of them;
read by `DECOMPRESS` only). -/
structure Command where
  block : Block
  op : Code
  row : Nat
  chunk : List Byte
deriving DecidableEq, Repr

/-- An instruction as the hardware receives it: the bytes of a form in the stream, or a command at a port. -/
inductive Encoded where
  | form (bytes : List Byte)
  | command (c : Command)
deriving DecidableEq, Repr

end Sys2Proof
end

