-- ==== Sys2Proof/WellFormed.lean ====
section
/-! DEFINITION. Which instructions exist for given parameters: a delta form belongs to one variant (R46 to R51), and a
row has exactly N values (R59; 91_not_in_source.md N17). -/

namespace Sys2Proof

/-- The instruction exists in a stream of variant `v`, or at the port of an encoder with `n` columns. -/
def WellFormed (v : Variant) (n : Nat) : Instr → Bool
  | .v1d3 _ _ => v == .v1
  | .v2d2 _ _ => v == .v2
  | .v2d3 _ _ => v == .v2
  | .v3d1 _ _ => v == .v3
  | .v3d2 _ _ => v == .v3
  | .v3d3 _ _ => v == .v3
  | .writeRow row => row.length == n
  | .raw _ => true
  | .eReset => true
  | .getData => true
  | .getUsize => true
  | .getCsize => true
  | .getRatio => true
  | .decompress _ => true
  | .dGetUsize => true
  | .dGetCsize => true
  | .dGetRatio => true
  | .dGetStatus => true

end Sys2Proof
end

