-- ==== Sys2Proof/Decode.lean ====
section
/-! DEFINITION. From bytes and port signals to instructions and back: the classification of a lead byte
(spec/30_encoding.md rule R53), the layouts of the seven forms (R45 to R51), the command codes (spec/42_host_ops.md
rule R89) and the encoder. -/

namespace Sys2Proof

/-- Why the decoder refuses: no lead byte, a form cut short by the end of the chunk (R74), or a command code not in
the table of R89. -/
inductive DecodeError where
  | noLeadByte
  | truncated (f : Form)
  | undefinedCommand (b : Block) (op : Code)
deriving DecidableEq, Repr

/-- The length L of a form in bytes (R44). -/
def formLength : Form → Nat
  | .raw => 4
  | .v1d3 => 3
  | .v2d2 => 2
  | .v2d3 => 3
  | .v3d1 => 1
  | .v3d2 => 2
  | .v3d3 => 3

/-- `Classify` (R53): the form a lead byte announces. Total: every byte value classifies in every variant. The
selector values are those of R58 (log 2). -/
def classify (v : Variant) (b : Byte) : Form :=
  if b.getLsbD 7 = false then .raw
  else
    match v with
    | .v1 => .v1d3
    | .v2 => if b.getLsbD 5 = false then .v2d2 else .v2d3
    | .v3 =>
      if b.getLsbD 5 = false then .v3d1
      else if b.getLsbD 4 = false then .v3d2
      else .v3d3

/-- Concatenation of two bit strings of together `w` bits, the first more significant (R10). -/
def cat (w : Nat) {m n : Nat} (x : BitVec m) (y : BitVec n) : BitVec w :=
  (x ++ y).setWidth w

/-- Concatenation of a bit string and two bytes, of together `w` bits. -/
def cat2 (w : Nat) {m : Nat} (x : BitVec m) (b1 b2 : Byte) : BitVec w :=
  cat w (cat (m + 8) x b1) b2

/-- The sign bit S of a delta form: bit 6 of its lead byte (R46 to R51). -/
def signOf (b : Byte) : Bool :=
  b.getLsbD 6

/-- The instruction of form `f` with lead byte `b0` and the bytes after it, its fields as in R45 to R51; a form whose
bytes are not all there is refused. -/
def decodeAs (f : Form) (b0 : Byte) (rest : List Byte) : Except DecodeError Instr :=
  match f, rest with
  | .raw, b1 :: b2 :: b3 :: _ => .ok (.raw (cat2 31 (cat 15 (b0.extractLsb' 0 7) b1) b2 b3))
  | .v1d3, b1 :: b2 :: _ => .ok (.v1d3 (signOf b0) (cat2 22 (b0.extractLsb' 0 6) b1 b2))
  | .v2d2, b1 :: _ => .ok (.v2d2 (signOf b0) (cat 13 (b0.extractLsb' 0 5) b1))
  | .v2d3, b1 :: b2 :: _ => .ok (.v2d3 (signOf b0) (cat2 21 (b0.extractLsb' 0 5) b1 b2))
  | .v3d1, _ => .ok (.v3d1 (signOf b0) (b0.extractLsb' 0 5))
  | .v3d2, b1 :: _ => .ok (.v3d2 (signOf b0) (cat 12 (b0.extractLsb' 0 4) b1))
  | .v3d3, b1 :: b2 :: _ => .ok (.v3d3 (signOf b0) (cat2 20 (b0.extractLsb' 0 4) b1 b2))
  | f, _ => .error (.truncated f)

/-- Reads one form from the front of a byte sequence: the lead byte names the form (R53). -/
def decodeForm (v : Variant) : List Byte → Except DecodeError Instr
  | [] => .error .noLeadByte
  | b0 :: rest => decodeAs (classify v b0) b0 rest

/-- The form an instruction is, if it is a wire form. -/
def formOf : Instr → Option Form
  | .raw _ => some .raw
  | .v1d3 _ _ => some .v1d3
  | .v2d2 _ _ => some .v2d2
  | .v2d3 _ _ => some .v2d3
  | .v3d1 _ _ => some .v3d1
  | .v3d2 _ _ => some .v3d2
  | .v3d3 _ _ => some .v3d3
  | .writeRow _ => none
  | .eReset => none
  | .getData => none
  | .getUsize => none
  | .getCsize => none
  | .getRatio => none
  | .decompress _ => none
  | .dGetUsize => none
  | .dGetCsize => none
  | .dGetRatio => none
  | .dGetStatus => none

/-- The values on the `cmd_row` bus: `row[c]` is bits 32c+31 .. 32c (R100), for the `n` columns of the encoder. -/
def unpackRow : Nat → Nat → List Word
  | 0, _ => []
  | n + 1, bus => BitVec.ofNat 32 bus :: unpackRow n (bus / 2 ^ 32)

/-- The `cmd_row` bus that carries a row (R100). -/
def packRow : List Word → Nat
  | [] => 0
  | w :: ws => w.toNat + 2 ^ 32 * packRow ws

/-- The command codes of R89 for the encoder, of which 6 and 7 are undefined. -/
def decodeEncoderCommand (n : Nat) (c : Command) : Except DecodeError Instr :=
  match c.op.toNat with
  | 0 => .ok (.writeRow (unpackRow n c.row))
  | 1 => .ok .eReset
  | 2 => .ok .getData
  | 3 => .ok .getUsize
  | 4 => .ok .getCsize
  | 5 => .ok .getRatio
  | _ => .error (.undefinedCommand .encoder c.op)

/-- The command codes of R89 for the decoder, of which 1, 2 and 7 are undefined. -/
def decodeDecoderCommand (c : Command) : Except DecodeError Instr :=
  match c.op.toNat with
  | 0 => .ok (.decompress c.chunk)
  | 3 => .ok .dGetUsize
  | 4 => .ok .dGetCsize
  | 5 => .ok .dGetRatio
  | 6 => .ok .dGetStatus
  | _ => .error (.undefinedCommand .decoder c.op)

/-- The instruction a command stands for, at the port of its block; `n` is the encoder's column count. -/
def decodeCommand (n : Nat) (c : Command) : Except DecodeError Instr :=
  match c.block with
  | .encoder => decodeEncoderCommand n c
  | .decoder => decodeDecoderCommand c

/-- The decoder: a form in a stream of variant `v`, or a command at a port. -/
def decode (v : Variant) (n : Nat) : Encoded → Except DecodeError Instr
  | .form bytes => decodeForm v bytes
  | .command c => decodeCommand n c

/-! ## The encoder -/

/-- The bytes of a 16-bit form, lead byte first (R36). -/
def bytes16 (w : BitVec 16) : List Byte :=
  [w.extractLsb' 8 8, w.extractLsb' 0 8]

/-- The bytes of a 24-bit form, lead byte first (R36). -/
def bytes24 (w : BitVec 24) : List Byte :=
  [w.extractLsb' 16 8, w.extractLsb' 8 8, w.extractLsb' 0 8]

/-- The bytes of a 32-bit form, lead byte first (R36). -/
def bytes32 (w : BitVec 32) : List Byte :=
  [w.extractLsb' 24 8, w.extractLsb' 16 8, w.extractLsb' 8 8, w.extractLsb' 0 8]

/-- The flag bits of a delta form, `f` in all: the marker 1, the sign, the selector bits (R44). -/
def marked (f : Nat) {k : Nat} (s : Bool) (selector : BitVec k) : BitVec f :=
  cat f (cat 2 1#1 (BitVec.ofBool s)) selector

/-- A command without operands. -/
def plainCommand (b : Block) (op : Code) : Encoded :=
  .command { block := b, op := op, row := 0, chunk := [] }

/-- The words of an instruction, from the layouts of R45 to R51 (marker, sign, selector, payload) and the codes of
R89. -/
def encode : Instr → Encoded
  | .raw v => .form (bytes32 (cat 32 0#1 v))
  | .v1d3 s m => .form (bytes24 (cat 24 (marked 2 s 0#0) m))
  | .v2d2 s m => .form (bytes16 (cat 16 (marked 3 s 0#1) m))
  | .v2d3 s m => .form (bytes24 (cat 24 (marked 3 s 1#1) m))
  | .v3d1 s m => .form [cat 8 (marked 3 s 0#1) m]
  | .v3d2 s m => .form (bytes16 (cat 16 (marked 4 s 0b10#2) m))
  | .v3d3 s m => .form (bytes24 (cat 24 (marked 4 s 0b11#2) m))
  | .writeRow row => .command { block := .encoder, op := 0, row := packRow row, chunk := [] }
  | .eReset => plainCommand .encoder 1
  | .getData => plainCommand .encoder 2
  | .getUsize => plainCommand .encoder 3
  | .getCsize => plainCommand .encoder 4
  | .getRatio => plainCommand .encoder 5
  | .decompress chunk => .command { block := .decoder, op := 0, row := 0, chunk := chunk }
  | .dGetUsize => plainCommand .decoder 3
  | .dGetCsize => plainCommand .decoder 4
  | .dGetRatio => plainCommand .decoder 5
  | .dGetStatus => plainCommand .decoder 6

/-! ## The table's words

The rows of spec/opcode_table.json share words: `0x00` is `RAW`, `WRITE_ROW` and `DECOMPRESS`, `0x80` is a delta form
of every variant. What tells them apart is the port the word arrives at and the decoder's `VARIANT`, which the word
does not hold; the functions below choose them (DESIGN CHOICE, notes/assumptions/11.md). -/

/-- The command port a table word is presented at: a command code of one byte at the encoder's port, but 6 at the
decoder's (no other block has it); `none`: the word is a form in a stream. -/
def tablePort (nbits w : Nat) : Option Block :=
  if nbits ≤ 8 ∧ w < 8 then some (if w = 6 then .decoder else .encoder) else none

/-- The bytes of a table word, the first in bits 7..0, as many as the longest form has. -/
def tableBytes (w : Nat) : List Byte :=
  [BitVec.ofNat 8 w, BitVec.ofNat 8 (w / 2 ^ 8), BitVec.ofNat 8 (w / 2 ^ 16), BitVec.ofNat 8 (w / 2 ^ 24)]

/-- The variant a table word is read in: the highest one whose form has the row's length, else 3. -/
def tableVariant (nbits w : Nat) : Variant :=
  let fits (v : Variant) : Bool := formLength (classify v (BitVec.ofNat 8 w)) * 8 == nbits
  if fits .v3 then .v3 else if fits .v2 then .v2 else if fits .v1 then .v1 else .v3

/-- The command a table word stands for at a port, its operands zero. -/
def tableCommand (b : Block) (w : Nat) : Command :=
  { block := b, op := BitVec.ofNat 3 w, row := 0, chunk := [] }

/-- The instruction the decoder reads from a word of spec/opcode_table.json, with the column count of the reset
configuration. -/
def decodeTableWord (nbits w : Nat) : Option Instr :=
  let source : Encoded :=
    match tablePort nbits w with
    | some b => .command (tableCommand b w)
    | none => .form (tableBytes w)
  match decode (tableVariant nbits w) EncConfig.illustrative.n source with
  | .ok i => some i
  | .error _ => none

end Sys2Proof
end

