-- ==== Sys2Proof/Machine/State.lean ====
section
/-! DEFINITION. The state of the two blocks (spec/10_state.md), what a command answers, what the host has still to
present, and the state after reset (spec/70_reset_and_hazards.md rules R126, R127). -/

namespace Sys2Proof.Machine

/-- A byte memory: `BUF` or `CHUNK` (R35), as (index, byte) pairs with strictly rising indices. An index that is not
listed holds no byte (log 8), so no listed pair is what an unlisted index reads as. -/
abbrev Memory := List Host.Cell

/-- A row at the decoder's output: N words of 32 bits (R22, R84). -/
abbrev Row := List Word

/-- The status codes of R106. -/
inductive Status where
  | ok
  | truncatedStream
  | valueOutOfRange
  | metricUndefined
  | bufferOverflow
  | decodedOutOfRange
  | noReference
  | refused
deriving DecidableEq, Repr

/-- What is returned with a status: the result of an operation (R89) or the information recorded with a fault
(R106). -/
inductive Info where
  /-- nothing -/
  | nothing
  /-- `TruncatedStream`: `D_POS` and `D_CUR` -/
  | position (pos cur : Nat)
  /-- `ValueOutOfRange`: the lowest offending column; `NoReference`: `D_CUR` -/
  | column (c : Nat)
  /-- `DecodedOutOfRange`: `D_CUR` and the integer that left the range -/
  | outOfRange (cur : Nat) (t : Int)
  /-- `Refused` by `DECOMPRESS`: the latched `D_FAULT` -/
  | latched (code : Code)
  /-- `GET_DATA` -/
  | data (bytes : List Byte)
  /-- the size operations -/
  | size (n : Nat)
  /-- the ratio operations: numerator and denominator -/
  | pair (num den : Nat)
  /-- `D_GET_STATUS` -/
  | faultCode (code : Code)
deriving DecidableEq, Repr

/-- The answer to a command: its status, what comes with it, and the rows that `DECOMPRESS` returned (R73). -/
structure Response where
  status : Status
  info : Info
  rows : List Row
deriving DecidableEq, Repr

/-- The state of one `delta_encoder` (R15) with its parameters and the answer to its last command. -/
structure EncState where
  /-- the parameters (R7, R33) -/
  cfg : EncConfig
  /-- `E_LAST[0..N-1]` (R16) -/
  last : List Value
  /-- `E_FIRST` (R17) -/
  first : Bool
  /-- `E_RUN` (R18) -/
  run : Nat
  /-- `E_ROWS` (R19) -/
  rows : Nat
  /-- `BUF` (R20) -/
  buf : Memory
  /-- `BUF_LEN` (R20) -/
  bufLen : Nat
  /-- the answer to the block's last command; `none` before the first (log 7) -/
  rsp : Option Response
deriving DecidableEq, Repr

/-- A `DECOMPRESS` in progress (R27, R73): `CHUNK` and its length, `D_POS`, and the rows completed so far. -/
structure Decoding where
  chunk : Memory
  len : Nat
  pos : Nat
  rows : List Row
deriving DecidableEq, Repr

/-- The state of one `delta_decoder` (R22) with its parameters and the answer to its last command. -/
structure DecState where
  /-- the parameters (R7, R33) -/
  cfg : DecConfig
  /-- `D_LAST[0..N-1]` (R23) -/
  last : List Value
  /-- `D_VALID[0..N-1]` (R24) -/
  valid : List Bool
  /-- `D_CUR` (R25) -/
  cur : Nat
  /-- `D_ROWACC[0..N-1]` (R26) -/
  rowAcc : Row
  /-- `D_FAULT` (R28) -/
  fault : Code
  /-- `D_COMP` (R29) -/
  comp : Nat
  /-- `D_UNCOMP` (R29) -/
  uncomp : Nat
  /-- the `DECOMPRESS` in progress; `CHUNK` and `D_POS` are held only while one runs (R22, R27) -/
  active : Option Decoding
  /-- the answer to the block's last command; `none` before the first and while a `DECOMPRESS` runs (log 7) -/
  rsp : Option Response
deriving DecidableEq, Repr

/-- What the host does next (log 3): presents a command at a block's port, pulses a block's reset pin (R125), or
presents nothing for a step. -/
inductive Input where
  | command (c : Command)
  | rst (b : Block)
  | idle
deriving DecidableEq, Repr

/-- The machine: one encoder, one decoder, which share nothing (R3, R123), and the host's inputs still to come
(log 3). -/
structure State where
  enc : EncState
  dec : DecState
  inputs : List Input
deriving DecidableEq, Repr

/-- Why the machine stops with a fault. -/
inductive Fault where
  /-- A byte is read at an index of `BUF` or `CHUNK` that holds none (R40). Raised by `GET_DATA` and by the fetch of a
  form; no state that satisfies the invariant of Safety.lean raises it. Safe. -/
  | absentByte (addr : Nat)
deriving DecidableEq, Repr

/-- Why the machine gives an instruction no meaning. -/
inductive Refusal where
  /-- No meaning is modelled for the instruction of this name; raised by no arm of this model. Safe. -/
  | notModelled (mnemonic : String)
  /-- A wire form is executed while no `DECOMPRESS` runs, so that there is no chunk, no `D_POS` and no row to complete
  (R27). Raised by the seven forms; no step does it. Safe. -/
  | noDecompressRunning
deriving DecidableEq, Repr

/-- The encoder's reset state (R126). -/
def EncState.reset (cfg : EncConfig) : EncState :=
  { cfg := cfg
    last := List.replicate cfg.n 0
    first := true
    run := 0
    rows := 0
    buf := []
    bufLen := 0
    rsp := none }

/-- The decoder's reset state (R127). -/
def DecState.reset (cfg : DecConfig) : DecState :=
  { cfg := cfg
    last := List.replicate cfg.n 0
    valid := List.replicate cfg.n false
    cur := 0
    rowAcc := List.replicate cfg.n 0
    fault := 0
    comp := 0
    uncomp := 0
    active := none
    rsp := none }

/-- Both blocks after reset, with any parameters; the host has presented nothing yet. -/
def State.resetWith (ec : EncConfig) (dc : DecConfig) : State :=
  { enc := EncState.reset ec
    dec := DecState.reset dc
    inputs := [] }

/-- The machine after reset with the illustrative parameters (log 1). -/
def State.reset : State :=
  State.resetWith EncConfig.illustrative DecConfig.illustrative

end Sys2Proof.Machine
end

