-- ==== Sys2Proof/Machine/Flags.lean ====
section
/-! DEFINITION. The flags and status codes: `E_FIRST` and the refresh counter (spec/40_encoder.md rules R59, R61), the
sign bit (R62), `D_VALID` (R24), and the codes and stickiness of a status (spec/60_exceptions.md rule R106). -/

namespace Sys2Proof.Machine

/-- The 3-bit code of a status (R106). -/
def statusCode : Status → Code
  | .ok => 0
  | .truncatedStream => 1
  | .valueOutOfRange => 2
  | .metricUndefined => 3
  | .bufferOverflow => 4
  | .decodedOutOfRange => 5
  | .noReference => 6
  | .refused => 7

/-- The statuses that latch `D_FAULT` (R106, column "sticky"). -/
def sticky : Status → Bool
  | .truncatedStream => true
  | .decodedOutOfRange => true
  | .noReference => true
  | .ok => false
  | .valueOutOfRange => false
  | .metricUndefined => false
  | .bufferOverflow => false
  | .refused => false

/-- The next row is forced raw (R59 step 2, R61). -/
def forcedRaw (e : EncState) : Bool :=
  e.first || (decide (0 < e.cfg.r) && e.run == e.cfg.r)

/-- `E_RUN` after a row (R59 step 5). -/
def nextRun (e : EncState) : Nat :=
  if forcedRaw e then 0 else if 0 < e.cfg.r then e.run + 1 else 0

/-- The sign S of an offset: true = increase, and zero counts as an increase (R62). -/
def signBit (last new : Nat) : Bool :=
  decide (last ≤ new)

/-- `D_VALID[c]` (R24). -/
def hasReference (d : DecState) (c : Nat) : Bool :=
  d.valid.getD c false

end Sys2Proof.Machine
end

