-- ==== Sys2Proof/Machine/Operands.lean ====
section
/-! DEFINITION. The operands: byte strings (spec/00_scope.md rule R11), the variant tables (R12), the offset (R62),
the check of a row (R60), the signed mapping (spec/43_signed_mapping.md) and `ApplyDelta` (R83). -/

namespace Sys2Proof.Machine

/-- `BE(v, n)`: the n bytes of v, the most significant first (R11). -/
def be (v : Nat) : Nat → List Byte
  | 0 => []
  | n + 1 => BitVec.ofNat 8 (v / 256 ^ n) :: be v n

/-- `UBE(s)`: the number a byte sequence spells, the most significant byte first (R11). -/
def ube : List Byte → Nat
  | [] => 0
  | b :: bs => b.toNat * 256 ^ bs.length + ube bs

/-- `CAP(k)`: the largest offset that k magnitude bits hold (R12). -/
def cap (k : Nat) : Nat :=
  2 ^ k - 1

/-- `LEVELS(VARIANT)`: the delta levels as (bytes, magnitude bits), fewest bytes first (R12). -/
def levels : Variant → List (Nat × Nat)
  | .v1 => [(3, 22)]
  | .v2 => [(2, 13), (3, 21)]
  | .v3 => [(1, 5), (2, 12), (3, 20)]

/-- The offset between two values, a magnitude (R62). -/
def offset (last new : Nat) : Nat :=
  ((last : Int) - (new : Int)).natAbs

/-- The lowest column, counted from `c`, whose value is 2^31 or more (R60). -/
def outOfRangeFrom (c : Nat) : List Word → Option Nat
  | [] => none
  | w :: ws => if 2 ^ 31 ≤ w.toNat then some c else outOfRangeFrom (c + 1) ws

/-- The column `ValueOutOfRange` reports, if the row is to be rejected (R60). -/
def firstOutOfRange (row : List Word) : Option Nat :=
  outOfRangeFrom 0 row

/-- `unsignify` (R101): the producer's transform, outside the hardware. -/
def unsignify (k : Nat) (s : Int) : Int :=
  s + k

/-- The signed integers that `unsignify` carries into the encodable range (R101): outside them the producer breaks the
contract. -/
abbrev Signifiable (k : Nat) (s : Int) : Prop :=
  0 ≤ unsignify k s ∧ unsignify k s < 2 ^ 31

/-- `resignify` (R102): the decoder's transform for a column in `SIGNED`. -/
def resignify (k : Nat) (v : Nat) : Int :=
  v - k

/-- The word column `c` shows for the decoded value `v` (R84): re-signed if the column is in `SIGNED`, else as it
is. -/
def outputWord (cfg : DecConfig) (c : Nat) (v : Value) : Word :=
  if c ∈ cfg.signed then BitVec.ofInt 32 (resignify cfg.signOffset v.toNat) else v.setWidth 32

/-- A fault about to be raised: its status and the information recorded with it (R106). -/
structure FaultReport where
  status : Status
  info : Info
deriving DecidableEq, Repr

/-- The exact sum of a column's last value and a signed offset (R83). -/
def deltaSum (s : Bool) (mag : Nat) (last : Nat) : Int :=
  if s then (last : Int) + mag else (last : Int) - mag

/-- `D_LAST[c]` (R23). -/
def lastValue (d : DecState) (c : Nat) : Value :=
  d.last.getD c 0

/-- `ApplyDelta(S, mag)` (R83): the decoded value, or `NoReference`, or `DecodedOutOfRange`, in that order. -/
def applyDelta (s : Bool) (mag : Nat) (d : DecState) : Except FaultReport Value :=
  if hasReference d d.cur then
    let t := deltaSum s mag (lastValue d d.cur).toNat
    if t < 0 ∨ 2 ^ 31 ≤ t then .error { status := .decodedOutOfRange, info := .outOfRange d.cur t }
    else .ok (BitVec.ofInt 31 t)
  else .error { status := .noReference, info := .column d.cur }

end Sys2Proof.Machine
end

