-- ==== Sys2Proof/Machine/Ops.lean ====
section
/-! DEFINITION. The named operations: the byte memories (spec/20_memory.md), answering a command, raising a fault and
coming back from one (spec/60_exceptions.md rules R117, R118), the commit of a decoded form (spec/41_decoder.md rule
R84), the end of a chunk (R85) and the construction of an instance (spec/00_scope.md rule R7). -/

namespace Sys2Proof.Machine

/-! ## Memory -/

/-- The byte at an index, if there is one (R35, R40). -/
def Memory.read : Memory → Nat → Option Byte
  | [], _ => none
  | c :: m, a => if c.1 = a then some c.2 else Memory.read m a

/-- Stores one byte, keeping the indices strictly rising. -/
def Memory.write : Memory → Nat → Byte → Memory
  | [], a, b => [(a, b)]
  | c :: m, a, b =>
    if a < c.1 then (a, b) :: c :: m
    else if a = c.1 then (a, b) :: m
    else c :: Memory.write m a b

/-- The canonical form: strictly rising indices. -/
abbrev Memory.wf (m : Memory) : Prop :=
  m.Pairwise (fun x y => x.1 < y.1)

/-- Exactly the indices 0 .. len-1 hold a byte, listed in order (R20, R35). -/
abbrev Memory.Dense (m : Memory) (len : Nat) : Prop :=
  m.map Prod.fst = List.range len

/-- `MemRead(addr, n)` (R11): the n bytes from an index on, if all are there. -/
def Memory.readBytes (m : Memory) (a : Nat) : Nat → Option (List Byte)
  | 0 => some []
  | n + 1 =>
    match Memory.read m a, Memory.readBytes m (a + 1) n with
    | some b, some bs => some (b :: bs)
    | _, _ => none

/-- Stores a byte string from an index on (R11, `MemWrite`; the caller's index is `BUF_LEN`). -/
def Memory.writeBytes (m : Memory) (a : Nat) : List Byte → Memory
  | [] => m
  | b :: bs => Memory.writeBytes (Memory.write m a b) (a + 1) bs

/-- A byte sequence as a memory from index 0 on: `CHUNK <- chunk` (R73). -/
def Memory.ofBytes (bs : List Byte) : Memory :=
  Memory.writeBytes [] 0 bs

/-- The lowest index of a range that holds no byte: what a failed `MemRead` names in its fault. -/
def Memory.firstAbsent (m : Memory) (a : Nat) : Nat → Nat
  | 0 => a
  | n + 1 => if (Memory.read m a).isSome then Memory.firstAbsent m (a + 1) n else a

/-! ## Answers, faults, reset -/

/-- A block answers its command with a status, what comes with it, and rows; nothing else changes. -/
def State.respond (b : Block) (st : Status) (info : Info) (rows : List Row) (s : State) : State :=
  match b with
  | .encoder => { s with enc := { s.enc with rsp := some { status := st, info := info, rows := rows } } }
  | .decoder => { s with dec := { s.dec with rsp := some { status := st, info := info, rows := rows } } }

/-- The rows a running `DECOMPRESS` has completed. -/
def DecState.rowsSoFar (d : DecState) : List Row :=
  match d.active with
  | some a => a.rows
  | none => []

/-- Latches a sticky fault: `D_FAULT` takes the code and the operation ends (R117). -/
def DecState.latch (st : Status) (d : DecState) : DecState :=
  { d with fault := statusCode st, active := none }

/-- Raising a fault (`raise` of R11; R117): the operation ends and its status and information are returned. A sticky
fault of the decoder latches `D_FAULT`, ends the `DECOMPRESS` and returns the rows completed before it; every other
fault changes no state. -/
def State.takeFault (b : Block) (f : FaultReport) (s : State) : State :=
  match b with
  | .encoder => s.respond .encoder f.status f.info []
  | .decoder =>
    if sticky f.status then
      State.respond .decoder f.status f.info s.dec.rowsSoFar { s with dec := s.dec.latch f.status }
    else s.respond .decoder f.status f.info []

/-- The reset pin of a block (R125): its reset state, the parameters kept (R128), the other block untouched. It is the
only way back from a sticky fault (R118), and an operation in progress is abandoned without an answer. -/
def State.hardwareReset (b : Block) (s : State) : State :=
  match b with
  | .encoder => { s with enc := EncState.reset s.enc.cfg }
  | .decoder => { s with dec := DecState.reset s.dec.cfg }

/-- A command code that the block does not have (R89, R115 (b)): `Refused`, nothing else. -/
def State.refuseCommand (b : Block) (s : State) : State :=
  s.takeFault b { status := .refused, info := .nothing }

/-! ## The decoder's commit and end of chunk -/

/-- `D_CUR` after one value (R25, R84). -/
def nextColumn (n c : Nat) : Nat :=
  (c + 1) % n

/-- The `DECOMPRESS` in progress after one value of `len` bytes: `D_POS` advances, and the row is complete if the
cursor is back at 0 (R84). -/
def Decoding.advance (a : Decoding) (len cur : Nat) (acc : Row) : Decoding :=
  { a with pos := a.pos + len, rows := if cur = 0 then a.rows ++ [acc] else a.rows }

/-- `D_ROWACC` after value `v` for the current column (R84). -/
def DecState.accumulate (d : DecState) (v : Value) : Row :=
  d.rowAcc.set d.cur (outputWord d.cfg d.cur v)

/-- `Commit(v, L)` (R84). -/
def State.commit (v : Value) (len : Nat) (a : Decoding) (s : State) : State :=
  { s with
    dec := { s.dec with
      last := s.dec.last.set s.dec.cur v
      valid := s.dec.valid.set s.dec.cur true
      cur := nextColumn s.dec.cfg.n s.dec.cur
      rowAcc := s.dec.accumulate v
      active := some (a.advance len (nextColumn s.dec.cfg.n s.dec.cur) (s.dec.accumulate v)) } }

/-- One form inside a `DECOMPRESS` (R73 step 2): the value it computes is committed, or the fault it raises is taken. -/
def executeForm (len : Nat) (value : Except FaultReport Value) (s : State) : Host.Outcome State Fault Refusal :=
  match s.dec.active with
  | none => .refused .noDecompressRunning
  | some a =>
    match value with
    | .ok v => .next (s.commit v len a)
    | .error f => .next (s.takeFault .decoder f)

/-- The start of a `DECOMPRESS` (R73 step 1). -/
def State.beginDecompress (chunk : List Byte) (s : State) : State :=
  { s with
    dec := { s.dec with
      active := some { chunk := Memory.ofBytes chunk, len := chunk.length, pos := 0, rows := [] }
      rsp := none } }

/-- A `DECOMPRESS` that ends without fault (R73 step 4): the metrics of R29 and the rows. -/
def State.finishDecompress (a : Decoding) (s : State) : State :=
  State.respond .decoder .ok .nothing a.rows
    { s with
      dec := { s.dec with
        comp := a.len
        uncomp := a.rows.length * s.dec.cfg.n * 4
        active := none } }

/-- `TruncatedStream(D_POS, D_CUR)` (R74, R85, R107). -/
def State.truncated (a : Decoding) (s : State) : State :=
  s.takeFault .decoder { status := .truncatedStream, info := .position a.pos s.dec.cur }

/-- The end of the chunk (R73 steps 3 and 4, R85): inside a row it is a truncation. -/
def State.endOfChunk (a : Decoding) (s : State) : State :=
  if s.dec.cur = 0 then s.finishDecompress a else s.truncated a

/-! ## What the host presents next -/

/-- The state with the decoder reading a chunk of its own, in a stream of variant `v`, and nothing presented by the
host in the next step. -/
def State.withStream (s : State) (v : Variant) (bytes : List Byte) : State :=
  { s with
    dec := { s.dec with
      cfg := { s.dec.cfg with variant := v }
      active := some { chunk := Memory.ofBytes bytes, len := bytes.length, pos := 0, rows := [] } }
    inputs := .idle :: s.inputs }

/-- The state with a command presented next, at a port that is ready. -/
def State.withCommand (s : State) (c : Command) : State :=
  { s with
    dec := { s.dec with active := match c.block with | .encoder => s.dec.active | .decoder => none }
    inputs := .command c :: s.inputs }

/-! ## Construction -/

/-- The variant of a number (R7): only 1, 2 and 3 name one. -/
def variantOf : Nat → Option Variant
  | 1 => some .v1
  | 2 => some .v2
  | 3 => some .v3
  | _ => none

/-- Builds an encoder, or refuses parameters outside their domain (R7, 92_eei_decisions.md D3). -/
def buildEncoder (variant n r : Nat) (bufCap : Option Nat) : Option EncState :=
  match variantOf variant with
  | none => none
  | some v =>
    let cfg : EncConfig := { variant := v, n := n, r := r, bufCap := bufCap }
    if cfg.Valid then some (EncState.reset cfg) else none

/-- Builds a decoder, or refuses parameters outside their domain (R7, 92_eei_decisions.md D3). -/
def buildDecoder (variant n : Nat) (signed : List Nat) (signOffset : Nat) : Option DecState :=
  match variantOf variant with
  | none => none
  | some v =>
    let cfg : DecConfig := { variant := v, n := n, signed := signed, signOffset := signOffset }
    if cfg.Valid then some (DecState.reset cfg) else none

end Sys2Proof.Machine
end

