-- ==== Sys2Proof/Machine/Decoder.lean ====
section
/-! DEFINITION. The decoder's commands: the start of `DECOMPRESS` (spec/41_decoder.md rule R73; its forms are in
Forms.lean, its end in Ops.lean) and the host operations of the decoder (spec/42_host_ops.md rules R96 to R99). -/

namespace Sys2Proof.Machine

/-- `DECOMPRESS(chunk)` (R73 steps 0 and 1): refused while a fault is latched (R115), else the chunk is taken and the
steps that follow execute its forms (log 4). -/
def execDecompress (chunk : List Byte) (s : State) : Host.Outcome State Fault Refusal :=
  if s.dec.fault = 0 then .next (s.beginDecompress chunk)
  else .next (s.takeFault .decoder { status := .refused, info := .latched s.dec.fault })

/-- `D_GET_USIZE` (R96). -/
def execDGetUsize (s : State) : Host.Outcome State Fault Refusal :=
  .next (s.respond .decoder .ok (.size s.dec.uncomp) [])

/-- `D_GET_CSIZE` (R97). -/
def execDGetCsize (s : State) : Host.Outcome State Fault Refusal :=
  .next (s.respond .decoder .ok (.size s.dec.comp) [])

/-- `D_GET_RATIO` (R98): the exact pair, or `MetricUndefined` when `D_COMP` is 0. -/
def execDGetRatio (s : State) : Host.Outcome State Fault Refusal :=
  if s.dec.comp = 0 then .next (s.takeFault .decoder { status := .metricUndefined, info := .nothing })
  else .next (s.respond .decoder .ok (.pair s.dec.uncomp s.dec.comp) [])

/-- `D_GET_STATUS` (R99). -/
def execDGetStatus (s : State) : Host.Outcome State Fault Refusal :=
  .next (s.respond .decoder .ok (.faultCode s.dec.fault) [])

end Sys2Proof.Machine
end

