-- ==== Sys2Proof/Machine/Emit.lean ====
section
/-! DEFINITION. What the encoder emits for one value (spec/40_encoder.md rules R62 to R70): the seven emission rules,
the selection of the level and the forms of one row. -/

namespace Sys2Proof.Machine

/-- A bit as a number. -/
def bitNat (b : Bool) : Nat :=
  if b then 1 else 0

/-- `EmitRAW(new)` (R64). -/
def emitRaw (new : Nat) : List Byte :=
  be new 4

/-- Emission of `V1.D3` (R65). -/
def emitV1d3 (s : Bool) (off : Nat) : List Byte :=
  be (2 ^ 23 + bitNat s * 2 ^ 22 + off) 3

/-- Emission of `V2.D2` (R66). -/
def emitV2d2 (s : Bool) (off : Nat) : List Byte :=
  be (2 ^ 15 + bitNat s * 2 ^ 14 + 0 * 2 ^ 13 + off) 2

/-- Emission of `V2.D3` (R67). -/
def emitV2d3 (s : Bool) (off : Nat) : List Byte :=
  be (2 ^ 23 + bitNat s * 2 ^ 22 + 1 * 2 ^ 21 + off) 3

/-- Emission of `V3.D1` (R68). -/
def emitV3d1 (s : Bool) (off : Nat) : List Byte :=
  be (2 ^ 7 + bitNat s * 2 ^ 6 + 0 * 2 ^ 5 + off) 1

/-- Emission of `V3.D2` (R69). -/
def emitV3d2 (s : Bool) (off : Nat) : List Byte :=
  be (2 ^ 15 + bitNat s * 2 ^ 14 + 1 * 2 ^ 13 + 0 * 2 ^ 12 + off) 2

/-- Emission of `V3.D3` (R70). -/
def emitV3d3 (s : Bool) (off : Nat) : List Byte :=
  be (2 ^ 23 + bitNat s * 2 ^ 22 + 1 * 2 ^ 21 + 1 * 2 ^ 20 + off) 3

/-- `EmitDelta(form of VARIANT with that byte count, S, offset)` (R63); `none`: the variant has no delta form of that
many bytes. -/
def emitDelta (v : Variant) (bytes : Nat) (s : Bool) (off : Nat) : Option (List Byte) :=
  match v, bytes with
  | .v1, 3 => some (emitV1d3 s off)
  | .v2, 2 => some (emitV2d2 s off)
  | .v2, 3 => some (emitV2d3 s off)
  | .v3, 1 => some (emitV3d1 s off)
  | .v3, 2 => some (emitV3d2 s off)
  | .v3, 3 => some (emitV3d3 s off)
  | _, _ => none

/-- The smallest level whose capacity covers an offset (R63): its byte count, if there is one. -/
def levelFor (v : Variant) (off : Nat) : Option Nat :=
  ((levels v).find? (fun l => decide (off ≤ cap l.2))).map Prod.fst

/-- `EncodeDelta(last, new)` (R62, R63). -/
def encodeDelta (v : Variant) (last new : Nat) : List Byte :=
  match levelFor v (offset last new) with
  | none => emitRaw new
  | some bytes => (emitDelta v bytes (signBit last new) (offset last new)).getD (emitRaw new)

/-- The forms of one row in column order (R59 step 3): all `RAW` on a forced row, else by rule R63. -/
def rowForms (e : EncState) (row : List Word) : List (List Byte) :=
  if forcedRaw e then row.map (fun w => emitRaw w.toNat)
  else List.zipWith (fun l w => encodeDelta e.cfg.variant l.toNat w.toNat) e.last row

end Sys2Proof.Machine
end

