-- ==== Sys2Proof/Machine/Encoder.lean ====
section
/-! DEFINITION. The encoder's commands: `WRITE_ROW` (spec/40_encoder.md rules R59 to R71) and the host operations of
the encoder (spec/42_host_ops.md rules R90 to R95). -/

namespace Sys2Proof.Machine

/-- `len` bytes in all do not fit below `BUF_CAP` (R71); with `BUF_CAP = ∞` they always do. -/
def overflows (bufCap : Option Nat) (len : Nat) : Bool :=
  match bufCap with
  | none => false
  | some c => decide (c < len)

/-- Appends forms at `BUF_LEN`, one `MemWrite` each, in column order (R59 step 5). -/
def appendForms (buf : Memory) (bufLen : Nat) : List (List Byte) → Memory × Nat
  | [] => (buf, bufLen)
  | f :: fs => appendForms (buf.writeBytes bufLen f) (bufLen + f.length) fs

/-- The number of bytes of a row's forms: `len(out)` (R59). -/
def formsLength (forms : List (List Byte)) : Nat :=
  forms.flatten.length

/-- The encoder after a row is accepted (R59 step 5, R71). -/
def EncState.acceptRow (row : List Word) (forms : List (List Byte)) (e : EncState) : EncState :=
  { e with
    last := row.map (fun w => w.setWidth 31)
    first := false
    run := nextRun e
    rows := e.rows + 1
    buf := (appendForms e.buf e.bufLen forms).1
    bufLen := (appendForms e.buf e.bufLen forms).2 }

/-- `WRITE_ROW(row)` (R59): `ValueOutOfRange` for the whole row first, then `BufferOverflow`, else the row is appended
and becomes the columns' last values. -/
def execWriteRow (row : List Word) (s : State) : Host.Outcome State Fault Refusal :=
  match firstOutOfRange row with
  | some c => .next (s.takeFault .encoder { status := .valueOutOfRange, info := .column c })
  | none =>
    if overflows s.enc.cfg.bufCap (s.enc.bufLen + formsLength (rowForms s.enc row)) then
      .next (s.takeFault .encoder { status := .bufferOverflow, info := .nothing })
    else
      .next (State.respond .encoder .ok .nothing []
        { s with enc := s.enc.acceptRow row (rowForms s.enc row) })

/-- `E_RESET` (R90): the reset state of R126, answered `OK`. -/
def execEReset (s : State) : Host.Outcome State Fault Refusal :=
  .next (State.respond .encoder .ok .nothing [] { s with enc := EncState.reset s.enc.cfg })

/-- `GET_DATA` (R91): the bytes 0 .. BUF_LEN-1. -/
def execGetData (s : State) : Host.Outcome State Fault Refusal :=
  match s.enc.buf.readBytes 0 s.enc.bufLen with
  | some bs => .next (s.respond .encoder .ok (.data bs) [])
  | none => .fault (.absentByte (s.enc.buf.firstAbsent 0 s.enc.bufLen))

/-- The uncompressed size of the rows written (R92). -/
def uncompressedSize (e : EncState) : Nat :=
  e.rows * e.cfg.n * 4

/-- `GET_USIZE` (R92). -/
def execGetUsize (s : State) : Host.Outcome State Fault Refusal :=
  .next (s.respond .encoder .ok (.size (uncompressedSize s.enc)) [])

/-- `GET_CSIZE` (R94). -/
def execGetCsize (s : State) : Host.Outcome State Fault Refusal :=
  .next (s.respond .encoder .ok (.size s.enc.bufLen) [])

/-- `GET_RATIO` (R95): the exact pair, or `MetricUndefined` when nothing has been written. -/
def execGetRatio (s : State) : Host.Outcome State Fault Refusal :=
  if s.enc.bufLen = 0 then .next (s.takeFault .encoder { status := .metricUndefined, info := .nothing })
  else .next (s.respond .encoder .ok (.pair (uncompressedSize s.enc) s.enc.bufLen) [])

end Sys2Proof.Machine
end

