-- ==== Sys2Proof/Machine/Forms.lean ====
section
/-! DEFINITION. The execution of the seven wire forms by the decoder (spec/41_decoder.md rules R76 to R82): each
computes the value of column `D_CUR` and commits it, or raises its fault. -/

namespace Sys2Proof.Machine

/-- `RAW` (R76): the value itself; `D_LAST` and `D_VALID` are not consulted. -/
def execRaw (v : Value) (s : State) : Host.Outcome State Fault Refusal :=
  executeForm (formLength .raw) (.ok v) s

/-- `V1.D3` (R77). -/
def execV1d3 (sg : Bool) (mag : BitVec 22) (s : State) : Host.Outcome State Fault Refusal :=
  executeForm (formLength .v1d3) (applyDelta sg mag.toNat s.dec) s

/-- `V2.D2` (R78). -/
def execV2d2 (sg : Bool) (mag : BitVec 13) (s : State) : Host.Outcome State Fault Refusal :=
  executeForm (formLength .v2d2) (applyDelta sg mag.toNat s.dec) s

/-- `V2.D3` (R79). -/
def execV2d3 (sg : Bool) (mag : BitVec 21) (s : State) : Host.Outcome State Fault Refusal :=
  executeForm (formLength .v2d3) (applyDelta sg mag.toNat s.dec) s

/-- `V3.D1` (R80). -/
def execV3d1 (sg : Bool) (mag : BitVec 5) (s : State) : Host.Outcome State Fault Refusal :=
  executeForm (formLength .v3d1) (applyDelta sg mag.toNat s.dec) s

/-- `V3.D2` (R81). -/
def execV3d2 (sg : Bool) (mag : BitVec 12) (s : State) : Host.Outcome State Fault Refusal :=
  executeForm (formLength .v3d2) (applyDelta sg mag.toNat s.dec) s

/-- `V3.D3` (R82). -/
def execV3d3 (sg : Bool) (mag : BitVec 20) (s : State) : Host.Outcome State Fault Refusal :=
  executeForm (formLength .v3d3) (applyDelta sg mag.toNat s.dec) s

end Sys2Proof.Machine
end

