-- ==== Sys2Proof/Machine/Dispatch.lean ====
section
/-! DEFINITION. One arm per instruction, each one call of its meaning. -/

namespace Sys2Proof.Machine

def exec (i : Instr) (s : State) : Host.Outcome State Fault Refusal :=
  match i with
  | .raw v => Sys2Proof.Machine.execRaw v s
  | .v1d3 sg mag => Sys2Proof.Machine.execV1d3 sg mag s
  | .v2d2 sg mag => Sys2Proof.Machine.execV2d2 sg mag s
  | .v2d3 sg mag => Sys2Proof.Machine.execV2d3 sg mag s
  | .v3d1 sg mag => Sys2Proof.Machine.execV3d1 sg mag s
  | .v3d2 sg mag => Sys2Proof.Machine.execV3d2 sg mag s
  | .v3d3 sg mag => Sys2Proof.Machine.execV3d3 sg mag s
  | .writeRow row => Sys2Proof.Machine.execWriteRow row s
  | .eReset => Sys2Proof.Machine.execEReset s
  | .getData => Sys2Proof.Machine.execGetData s
  | .getUsize => Sys2Proof.Machine.execGetUsize s
  | .getCsize => Sys2Proof.Machine.execGetCsize s
  | .getRatio => Sys2Proof.Machine.execGetRatio s
  | .decompress chunk => Sys2Proof.Machine.execDecompress chunk s
  | .dGetUsize => Sys2Proof.Machine.execDGetUsize s
  | .dGetCsize => Sys2Proof.Machine.execDGetCsize s
  | .dGetRatio => Sys2Proof.Machine.execDGetRatio s
  | .dGetStatus => Sys2Proof.Machine.execDGetStatus s

end Sys2Proof.Machine
end

