-- ==== Sys2Proof/Machine/Fetch.lean ====
section
/-! DEFINITION. What the next step is: the next form of the chunk a `DECOMPRESS` is reading (spec/41_decoder.md rules
R73, R74, R86), the command the host presents (spec/42_host_ops.md rules R89, R100), a reset pulse
(spec/70_reset_and_hazards.md rule R125), or waiting. -/

namespace Sys2Proof.Machine

/-- What a step finds to do: an instruction to run at a state whose inputs it has been taken from, an event that is no
instruction (with the state it leads to), or an index that should hold a byte and does not. -/
inductive Fetched where
  | instr (i : Instr) (s : State)
  | event (s : State)
  | absent (addr : Nat)
deriving DecidableEq, Repr

/-- How many bytes of the chunk the fetch of one form may look at: those left, and no more than the longest form
has. -/
def windowLength (a : Decoding) : Nat :=
  min (formLength .raw) (a.len - a.pos)

/-- One turn of the loop of R73: the end of the chunk (R85), a form whose bytes are not all there (R74), or the form at
`D_POS`. -/
def fetchForm (a : Decoding) (s : State) : Fetched :=
  if a.len ≤ a.pos then .event (s.endOfChunk a)
  else
    match a.chunk.readBytes a.pos (windowLength a) with
    | none => .absent (a.chunk.firstAbsent a.pos (windowLength a))
    | some bs =>
      match decodeForm s.dec.cfg.variant bs with
      | .ok i => .instr i s
      | .error _ => .event (s.truncated a)

/-- A step without a command: a running `DECOMPRESS` goes on, else both blocks wait for a command (R125). -/
def fetchDecoder (s : State) : Fetched :=
  match s.dec.active with
  | none => .event s
  | some a => fetchForm a s

/-- The block takes no command now: the decoder while a `DECOMPRESS` runs (R4, R100 `cmd_ready`). -/
def busy (b : Block) (s : State) : Bool :=
  match b with
  | .encoder => false
  | .decoder => s.dec.active.isSome

/-- The command the block accepts, its code decoded; an undefined code is refused (R89, R115). -/
def fetchCommand (c : Command) (s : State) : Fetched :=
  match decodeCommand s.enc.cfg.n c with
  | .ok i => .instr i s
  | .error _ => .event (s.refuseCommand c.block)

/-- What the next step does. A command for a busy block stays where it is until the block is free. -/
def fetch (s : State) : Fetched :=
  match s.inputs with
  | [] => fetchDecoder s
  | .idle :: rest => fetchDecoder { s with inputs := rest }
  | .rst b :: rest => .event (State.hardwareReset b { s with inputs := rest })
  | .command c :: rest =>
    if busy c.block s then fetchDecoder s else fetchCommand c { s with inputs := rest }

end Sys2Proof.Machine
end

