-- ==== Sys2Proof/Machine/Step.lean ====
section
/-! DEFINITION. One step of the machine: one command, one form of a running `DECOMPRESS`, one reset pulse, the end of a
chunk, or waiting. -/

namespace Sys2Proof.Machine

/-- One step: what `fetch` finds is done. -/
def step (s : State) : Host.Outcome State Fault Refusal :=
  match fetch s with
  | .instr i t => exec i t
  | .event t => .next t
  | .absent a => .fault (.absentByte a)

/-- The state in which the next step runs the instruction of a table word (log 11): a form is put into a chunk of a
running `DECOMPRESS` of the variant it belongs to, a command code is presented at its port. -/
def State.withFetchWord (s : State) (nbits w : Nat) : State :=
  match tablePort nbits w with
  | some b => s.withCommand (tableCommand b w)
  | none => s.withStream (tableVariant nbits w) (tableBytes w)

end Sys2Proof.Machine
end

