-- ==== Sys2Proof/Safety.lean ====
section
/-! DEFINITION. The terms in which statements about the machine are made: the invariants of spec/10_state.md (R21, R30),
runs of several steps, the commands of one operation, and the relations between two states. -/

namespace Sys2Proof.Machine

/-- What holds of an encoder between any two operations (R15, R21), for parameters in their domain (R7). -/
structure EncState.Inv (e : EncState) : Prop where
  valid : e.cfg.Valid
  last_length : e.last.length = e.cfg.n
  first_iff : e.first = true ↔ e.rows = 0
  run_le : e.run ≤ e.cfg.r
  run_first : e.first = true → e.run = 0
  len_ge : e.cfg.n * e.rows ≤ e.bufLen
  len_le : e.bufLen ≤ 4 * e.cfg.n * e.rows
  len_cap : overflows e.cfg.bufCap e.bufLen = false
  buf_dense : Memory.Dense e.buf e.bufLen

/-- What holds of a `DECOMPRESS` in progress (R27, R84). -/
structure Decoding.Inv (n : Nat) (a : Decoding) : Prop where
  chunk_dense : Memory.Dense a.chunk a.len
  pos_le : a.pos ≤ a.len
  row_length : ∀ r ∈ a.rows, r.length = n

/-- What holds of a decoder between any two steps (R22, R30), for parameters in their domain (R7). -/
structure DecState.Inv (d : DecState) : Prop where
  valid : d.cfg.Valid
  last_length : d.last.length = d.cfg.n
  valid_length : d.valid.length = d.cfg.n
  acc_length : d.rowAcc.length = d.cfg.n
  cur_lt : d.cur < d.cfg.n
  fault_code : d.fault ∈ [statusCode .ok, statusCode .truncatedStream, statusCode .decodedOutOfRange,
    statusCode .noReference]
  cur_rest : d.active = none → d.fault = 0 → d.cur = 0
  active_fault : ∀ a ∈ d.active, d.fault = 0
  active_inv : ∀ a ∈ d.active, Decoding.Inv d.cfg.n a

/-- The invariant of the machine. -/
structure State.Inv (s : State) : Prop where
  enc : s.enc.Inv
  dec : s.dec.Inv

/-- `k` steps, stopping at the first fault or refusal. -/
def runFor : Nat → State → Host.Outcome State Fault Refusal
  | 0, s => .next s
  | k + 1, s =>
    match step s with
    | .next t => runFor k t
    | .fault e => .fault e
    | .refused r => .refused r

/-- The rows of a list written one after another by `WRITE_ROW`. -/
def writeRows : List (List Word) → State → Host.Outcome State Fault Refusal
  | [], s => .next s
  | row :: rows, s =>
    match exec (.writeRow row) s with
    | .next t => writeRows rows t
    | .fault e => .fault e
    | .refused r => .refused r

/-- The command that presents a chunk to the decoder (R89, R100). -/
def decompressCommand (chunk : List Byte) : Command :=
  { block := .decoder, op := 0, row := 0, chunk := chunk }

/-- A whole `DECOMPRESS` with nothing else presented by the host: one step takes the command, at most one step a byte
executes the forms, one step ends it (R73; the steps are the model's choice, log 4); further steps would wait. -/
def decompressAll (chunk : List Byte) (s : State) : Host.Outcome State Fault Refusal :=
  runFor (chunk.length + 2) { s with inputs := [.command (decompressCommand chunk)] }

/-! ## `DECOMPRESS` as one operation

R73 as it is written, over the bytes of the chunk and with the arithmetic of R52 and R76 to R84: the atomic operation
that the steps of a running `DECOMPRESS` refine (R4, R100). -/

/-- The number of payload bits of a form (R44). -/
def payloadBits : Form → Nat
  | .raw => 31
  | .v1d3 => 22
  | .v2d2 => 13
  | .v2d3 => 21
  | .v3d1 => 5
  | .v3d2 => 12
  | .v3d3 => 20

/-- `Exec(form, w)` (R76 to R82) on the bytes of a form: its payload is the number they spell modulo 2 to the number of
payload bits (R52); a raw form is the value itself, a delta form goes through `ApplyDelta` with the sign bit. -/
def formValue (d : DecState) (b : Byte) (word : List Byte) : Except FaultReport Value :=
  let f := classify d.cfg.variant b
  let payload := ube word % 2 ^ payloadBits f
  if b.getLsbD 7 then applyDelta (b.getLsbD 6) payload d else .ok (BitVec.ofNat 31 payload)

/-- What a raised fault leaves (R117): the code latched, the rows completed before it returned. -/
def DecState.failed (d : DecState) (f : FaultReport) (rows : List Row) : DecState :=
  { d with
    fault := statusCode f.status
    rsp := some { status := f.status, info := f.info, rows := rows } }

/-- The registers after one value (R84). -/
def DecState.committed (d : DecState) (x : Value) : DecState :=
  { d with
    last := d.last.set d.cur x
    valid := d.valid.set d.cur true
    rowAcc := d.rowAcc.set d.cur (outputWord d.cfg d.cur x)
    cur := (d.cur + 1) % d.cfg.n }

/-- Steps 3 and 4 of R73, at position `pos`, where the bytes have run out. -/
def DecState.ended (d : DecState) (pos : Nat) (rows : List Row) : DecState :=
  if d.cur ≠ 0 then d.failed { status := .truncatedStream, info := .position pos d.cur } rows
  else
    { d with
      comp := pos
      uncomp := rows.length * d.cfg.n * 4
      rsp := some { status := .ok, info := .nothing, rows := rows } }

/-- Step 2 of R73 and what follows it: `pos` is `D_POS`, the list holds the bytes from there to the end of the chunk,
and `fuel` is at least their number, which every turn of the loop lowers (R138). -/
def decompressLoop : Nat → Nat → List Byte → List Row → DecState → DecState
  | _, pos, [], rows, d => d.ended pos rows
  | 0, pos, _ :: _, rows, d => d.ended pos rows
  | fuel + 1, pos, b :: rest, rows, d =>
    let len := formLength (classify d.cfg.variant b)
    if rest.length + 1 < len then d.failed { status := .truncatedStream, info := .position pos d.cur } rows
    else
      match formValue d b ((b :: rest).take len) with
      | .error f => d.failed f rows
      | .ok x =>
        let t := d.committed x
        decompressLoop fuel (pos + len) ((b :: rest).drop len) (if t.cur = 0 then rows ++ [t.rowAcc] else rows) t

/-- `DECOMPRESS(chunk)` (R73): the decoder after the whole operation, its answer included. -/
def decompressOperation (chunk : List Byte) (d : DecState) : DecState :=
  if d.fault ≠ 0 then
    { d with rsp := some { status := .refused, info := .latched d.fault, rows := [] } }
  else decompressLoop chunk.length 0 chunk [] d

/-- A row as the decoder shows it (R84): the columns in `SIGNED` re-signed, the others as they are. -/
def outputRow (cfg : DecConfig) (row : List Word) : Row :=
  row.mapIdx (fun c w => outputWord cfg c (w.setWidth 31))

/-- A row that `WRITE_ROW` accepts as to its values (R60) on a port of `n` columns. -/
abbrev RowOk (n : Nat) (row : List Word) : Prop :=
  row.length = n ∧ ∀ w ∈ row, w.toNat < 2 ^ 31

/-- What `Commit(v, L)` does to the machine, register by register and column by column (R84): column `D_CUR` takes the
value, its reference becomes valid, its output word is written, the position and the cursor advance, a complete row is
appended, and nothing else changes. -/
structure CommitsValue (v : Value) (len : Nat) (s t : State) : Prop where
  enc : t.enc = s.enc
  inputs : t.inputs = s.inputs
  cfg : t.dec.cfg = s.dec.cfg
  fault : t.dec.fault = s.dec.fault
  comp : t.dec.comp = s.dec.comp
  uncomp : t.dec.uncomp = s.dec.uncomp
  rsp : t.dec.rsp = s.dec.rsp
  last_length : t.dec.last.length = s.dec.last.length
  valid_length : t.dec.valid.length = s.dec.valid.length
  acc_length : t.dec.rowAcc.length = s.dec.rowAcc.length
  last : ∀ c < s.dec.cfg.n, lastValue t.dec c = if c = s.dec.cur then v else lastValue s.dec c
  valid : ∀ c < s.dec.cfg.n, hasReference t.dec c = if c = s.dec.cur then true else hasReference s.dec c
  acc : ∀ c < s.dec.cfg.n,
    t.dec.rowAcc[c]? = if c = s.dec.cur then some (outputWord s.dec.cfg c v) else s.dec.rowAcc[c]?
  cur : t.dec.cur = if s.dec.cur + 1 = s.dec.cfg.n then 0 else s.dec.cur + 1
  active : ∃ a b, s.dec.active = some a ∧ t.dec.active = some b ∧ b.chunk = a.chunk ∧ b.len = a.len ∧
    b.pos = a.pos + len ∧
    b.rows = if s.dec.cur + 1 = s.dec.cfg.n then a.rows ++ [t.dec.rowAcc] else a.rows

/-- A sticky fault taken inside a `DECOMPRESS` (R117): `D_FAULT` takes the code, the operation ends, the rows completed
before it are returned with the status and the information, and nothing else changes. -/
def LatchesFault (code : Code) (st : Status) (info : Info) (a : Decoding) (s t : State) : Prop :=
  t = { s with
    dec := { s.dec with
      fault := code
      active := none
      rsp := some { status := st, info := info, rows := a.rows } } }

/-- An encoder command that only answers: every register, the buffer, the decoder and the inputs are unchanged. -/
def EncoderAnswers (st : Status) (info : Info) (s t : State) : Prop :=
  t = { s with enc := { s.enc with rsp := some { status := st, info := info, rows := [] } } }

/-- A decoder command that only answers: every register, the encoder and the inputs are unchanged. -/
def DecoderAnswers (st : Status) (info : Info) (s t : State) : Prop :=
  t = { s with dec := { s.dec with rsp := some { status := st, info := info, rows := [] } } }

/-- The decoder is ready for what the encoder emits next (R30 item 5, R129): matching parameters, no fault, no operation
in progress, a row boundary; and the columns' references agree, unless the next row is forced raw by `E_FIRST`. -/
structure Synced (s : State) : Prop where
  same_variant : s.dec.cfg.variant = s.enc.cfg.variant
  same_columns : s.dec.cfg.n = s.enc.cfg.n
  no_fault : s.dec.fault = 0
  idle : s.dec.active = none
  boundary : s.dec.cur = 0
  references : s.enc.first = true ∨
    (s.dec.last = s.enc.last ∧ ∀ c < s.dec.cfg.n, hasReference s.dec c = true)

/-- Two operations in progress that differ at most in the values of the rows they return. -/
structure Decoding.SameParse (a b : Decoding) : Prop where
  chunk : a.chunk = b.chunk
  len : a.len = b.len
  pos : a.pos = b.pos
  rows : a.rows.length = b.rows.length

/-- Two machines that differ at most in what re-signing touches (R104, R105): the parameters `SIGNED` and
`SIGN_OFFSET`, `D_ROWACC`, the rows of an operation in progress and the decoder's last answer. -/
structure SameButResigning (s t : State) : Prop where
  enc : s.enc = t.enc
  inputs : s.inputs = t.inputs
  variant : s.dec.cfg.variant = t.dec.cfg.variant
  columns : s.dec.cfg.n = t.dec.cfg.n
  last : s.dec.last = t.dec.last
  valid : s.dec.valid = t.dec.valid
  cur : s.dec.cur = t.dec.cur
  fault : s.dec.fault = t.dec.fault
  comp : s.dec.comp = t.dec.comp
  uncomp : s.dec.uncomp = t.dec.uncomp
  active : (s.dec.active = none ∧ t.dec.active = none) ∨
    ∃ a b, s.dec.active = some a ∧ t.dec.active = some b ∧ Decoding.SameParse a b

/-- The host's next input empties the encoder: its reset pin or `E_RESET`. -/
def EncoderResetNext (s : State) : Prop :=
  s.inputs.head? = some (.rst .encoder) ∨
    ∃ c, s.inputs.head? = some (.command c) ∧ c.block = .encoder ∧ c.op = 1

end Sys2Proof.Machine
end

