-- ==== Sys2Proof/Certificates/Slice0/Obligations.lean ====
section
/-! DEFINITION. The statements for the provers, by the rule of spec/ that each formalises. -/

open Sys2Proof Sys2Proof.Machine

/-! ## Decoding and encoding -/

/-- A step runs the instruction that the decoder reads (R73, R89, R100): the form at `D_POS` of a running `DECOMPRESS`,
when the host presents nothing or a command that has to wait; or the command presented to a block that is not busy, which
is then taken from the inputs. That the host's commands stand in `inputs`, and that a form is a step of its own, are the
model's choices (log 3, log 4). -/
def Obligations.StepRunsTheDecodedInstruction : Prop :=
  (∀ (s : State) (a : Decoding) (bs : List Byte) (i : Instr),
    s.dec.active = some a → a.pos < a.len →
    a.chunk.readBytes a.pos (windowLength a) = some bs → decodeForm s.dec.cfg.variant bs = .ok i →
      (s.inputs = [] → step s = exec i s) ∧
      (∀ rest, s.inputs = .idle :: rest → step s = exec i { s with inputs := rest }) ∧
      (∀ c rest, s.inputs = .command c :: rest → c.block = .decoder → step s = exec i s)) ∧
  (∀ (s : State) (c : Command) (rest : List Input) (i : Instr),
    s.inputs = .command c :: rest → (c.block = .decoder → s.dec.active = none) →
    decodeCommand s.enc.cfg.n c = .ok i → step s = exec i { s with inputs := rest })

/-- Decoding an encoded instruction gives it back, for every instruction that exists in the variant and column count, with
every operand (R45 to R51, R89, R100). -/
def Obligations.DecodeInvertsEncode : Prop :=
  ∀ (v : Variant) (n : Nat) (i : Instr), WellFormed v n i = true → decode v n (encode i) = .ok i

/-- Every byte string whose lead byte announces no more bytes than there are decodes, to an instruction of the variant whose
encoding is exactly the bytes announced (R52, R53, R55); a shorter one does not decode (R74). -/
def Obligations.DecodedFormReencodesToItsBytes : Prop :=
  ∀ (v : Variant) (n : Nat) (b : Byte) (rest : List Byte),
    (formLength (classify v b) ≤ rest.length + 1 →
      ∃ i, decodeForm v (b :: rest) = .ok i ∧ WellFormed v n i = true ∧
        encode i = .form ((b :: rest).take (formLength (classify v b)))) ∧
    (rest.length + 1 < formLength (classify v b) →
      decodeForm v (b :: rest) = .error (.truncated (classify v b)))

/-- The lead-byte table of R54: form, sign and length for every byte value in every variant. -/
def Obligations.LeadByteRanges : Prop :=
  (∀ b : Byte,
    (b.toNat ≤ 0x7F → classify .v1 b = .raw ∧ classify .v2 b = .raw ∧ classify .v3 b = .raw) ∧
    (0x80 ≤ b.toNat → classify .v1 b = .v1d3) ∧
    ((0x80 ≤ b.toNat ∧ b.toNat ≤ 0x9F) ∨ (0xC0 ≤ b.toNat ∧ b.toNat ≤ 0xDF) →
      classify .v2 b = .v2d2 ∧ classify .v3 b = .v3d1) ∧
    ((0xA0 ≤ b.toNat ∧ b.toNat ≤ 0xBF) ∨ 0xE0 ≤ b.toNat → classify .v2 b = .v2d3) ∧
    ((0xA0 ≤ b.toNat ∧ b.toNat ≤ 0xAF) ∨ (0xE0 ≤ b.toNat ∧ b.toNat ≤ 0xEF) → classify .v3 b = .v3d2) ∧
    ((0xB0 ≤ b.toNat ∧ b.toNat ≤ 0xBF) ∨ 0xF0 ≤ b.toNat → classify .v3 b = .v3d3) ∧
    (0x80 ≤ b.toNat → (signOf b = true ↔ 0xC0 ≤ b.toNat))) ∧
  formLength .raw = 4 ∧ formLength .v1d3 = 3 ∧ formLength .v2d2 = 2 ∧ formLength .v2d3 = 3 ∧
    formLength .v3d1 = 1 ∧ formLength .v3d2 = 2 ∧ formLength .v3d3 = 3

/-- The spec's example words decode to the forms they stand for (R57, R64, R65, R67, R69, R70). -/
def Obligations.ExampleWordsDecode : Prop :=
  decodeForm .v1 [0x00, 0x00, 0x00, 0x64] = .ok (.raw 100) ∧
  decodeForm .v1 [0x80, 0x00, 0x01] = .ok (.v1d3 false 1) ∧
  decodeForm .v2 [0xC0, 0x01] = .ok (.v2d2 true 1) ∧
  decodeForm .v2 [0xA0, 0x20, 0x00] = .ok (.v2d3 false 8192) ∧
  decodeForm .v3 [0xC5] = .ok (.v3d1 true 5) ∧
  decodeForm .v3 [0xA0, 0x20] = .ok (.v3d2 false 32) ∧
  decodeForm .v3 [0xF0, 0xC2, 0xE7] = .ok (.v3d3 true 49895)

/-- `BE` and `UBE` are inverse to each other (R11): n bytes spell a number below 256^n, and a byte sequence is the `BE` of the
number it spells. -/
def Obligations.UbeInvertsBe : Prop :=
  (∀ v n : Nat, v < 256 ^ n → (be v n).length = n ∧ ube (be v n) = v) ∧
  (∀ s : List Byte, ube s < 256 ^ s.length ∧ be (ube s) s.length = s)

/-- What the decoder reads from the bytes of a form (R52, R76 to R82): the payload is the number the bytes spell modulo 2 to
the number of payload bits of the form, and the sign is bit 6 of the lead byte. -/
def Obligations.PayloadIsTheLowBitsOfTheBytes : Prop :=
  ∀ (v : Variant) (b : Byte) (rest : List Byte) (i : Instr) (u : Nat),
    decodeForm v (b :: rest) = .ok i → rest.length + 1 = formLength (classify v b) → u = ube (b :: rest) →
      (classify v b = .raw ∧ ∃ x, i = .raw x ∧ x.toNat = u % 2 ^ 31) ∨
      (classify v b = .v1d3 ∧ ∃ m, i = .v1d3 (b.getLsbD 6) m ∧ m.toNat = u % 2 ^ 22) ∨
      (classify v b = .v2d2 ∧ ∃ m, i = .v2d2 (b.getLsbD 6) m ∧ m.toNat = u % 2 ^ 13) ∨
      (classify v b = .v2d3 ∧ ∃ m, i = .v2d3 (b.getLsbD 6) m ∧ m.toNat = u % 2 ^ 21) ∨
      (classify v b = .v3d1 ∧ ∃ m, i = .v3d1 (b.getLsbD 6) m ∧ m.toNat = u % 2 ^ 5) ∨
      (classify v b = .v3d2 ∧ ∃ m, i = .v3d2 (b.getLsbD 6) m ∧ m.toNat = u % 2 ^ 12) ∨
      (classify v b = .v3d3 ∧ ∃ m, i = .v3d3 (b.getLsbD 6) m ∧ m.toNat = u % 2 ^ 20)

/-- What the encoder emits by the arithmetic of R64 to R70 is the layout of R45 to R51, for every operand a form
holds. -/
def Obligations.EmissionIsTheEncoding : Prop :=
  (∀ v : Value, Encoded.form (emitRaw v.toNat) = encode (.raw v)) ∧
  (∀ s (m : BitVec 22), Encoded.form (emitV1d3 s m.toNat) = encode (.v1d3 s m)) ∧
  (∀ s (m : BitVec 13), Encoded.form (emitV2d2 s m.toNat) = encode (.v2d2 s m)) ∧
  (∀ s (m : BitVec 21), Encoded.form (emitV2d3 s m.toNat) = encode (.v2d3 s m)) ∧
  (∀ s (m : BitVec 5), Encoded.form (emitV3d1 s m.toNat) = encode (.v3d1 s m)) ∧
  (∀ s (m : BitVec 12), Encoded.form (emitV3d2 s m.toNat) = encode (.v3d2 s m)) ∧
  (∀ s (m : BitVec 20), Encoded.form (emitV3d3 s m.toNat) = encode (.v3d3 s m))

/-- A raw form decodes to its value under every variant, whatever follows it: streams of raw forms survive a variant
mismatch (R76, R110). -/
def Obligations.RawDecodesInEveryVariant : Prop :=
  ∀ (v : Variant) (x : Value) (rest : List Byte), decodeForm v (emitRaw x.toNat ++ rest) = .ok (.raw x)

/-! ## The encoder -/

/-- The level selected for a delta row's column, by offset (R62, R63): the thresholds of R63's table. -/
def Obligations.EncodeDeltaFollowsTheThresholds : Prop :=
  ∀ (last new off : Nat) (s : Bool), last < 2 ^ 31 → new < 2 ^ 31 →
    ((last ≤ new ∧ s = true ∧ off = new - last) ∨ (new < last ∧ s = false ∧ off = last - new)) →
      encodeDelta .v1 last new = (if off ≤ 4194303 then emitV1d3 s off else emitRaw new) ∧
      encodeDelta .v2 last new =
        (if off ≤ 8191 then emitV2d2 s off else if off ≤ 2097151 then emitV2d3 s off else emitRaw new) ∧
      encodeDelta .v3 last new =
        (if off ≤ 31 then emitV3d1 s off
          else if off ≤ 4095 then emitV3d2 s off
          else if off ≤ 1048575 then emitV3d3 s off
          else emitRaw new)

/-- The encoded length does not decrease as the offset grows (R72 item 3). -/
def Obligations.EncodedLengthIsMonotone : Prop :=
  ∀ (v : Variant) (l m l' m' : Nat), offset l m ≤ offset l' m' →
    (encodeDelta v l m).length ≤ (encodeDelta v l' m').length

/-- For one level and one offset it can hold, the two signs differ in bit 6 of the lead byte only (R72 item 5). -/
def Obligations.SignChangesOnlyBitSix : Prop :=
  ∀ (v : Variant) (bytes bits off : Nat), (bytes, bits) ∈ levels v → off ≤ cap bits →
    ∃ (up down : Byte) (rest : List Byte), rest.length + 1 = bytes ∧
      emitDelta v bytes true off = some (up :: rest) ∧ emitDelta v bytes false off = some (down :: rest) ∧
      up = down ||| 0x40#8 ∧ down = up &&& 0xBF#8

/-- `WRITE_ROW` of a valid row that fits (R59, R61, R71): it answers `OK`; the forms (all raw if `E_FIRST` or a due
refresh forces the row, else delta-coded against `E_LAST`) are appended at `BUF_LEN` in column order; every byte below is
as before; the registers change as step 5 of R59 says; the decoder and the parameters do not change. -/
def Obligations.WriteRowAppendsItsForms : Prop :=
  ∀ (s : State) (row : List Word) (forms : List (List Byte)) (forced : Prop),
    s.enc.Inv → RowOk s.enc.cfg.n row →
    (forced ↔ (s.enc.first = true ∨ (0 < s.enc.cfg.r ∧ s.enc.run = s.enc.cfg.r))) →
    (forced → forms = row.map (fun w => emitRaw w.toNat)) →
    (¬forced → forms = List.zipWith (fun l w => encodeDelta s.enc.cfg.variant l.toNat w.toNat) s.enc.last row) →
    (∀ c, s.enc.cfg.bufCap = some c → s.enc.bufLen + forms.flatten.length ≤ c) →
      ∃ t, exec (.writeRow row) s = .next t ∧
        t.dec = s.dec ∧ t.inputs = s.inputs ∧ t.enc.cfg = s.enc.cfg ∧
        t.enc.last = row.map (fun w => w.setWidth 31) ∧ t.enc.first = false ∧ t.enc.rows = s.enc.rows + 1 ∧
        (forced → t.enc.run = 0) ∧
        (¬forced → t.enc.run = if 0 < s.enc.cfg.r then s.enc.run + 1 else 0) ∧
        t.enc.bufLen = s.enc.bufLen + forms.flatten.length ∧
        (∀ i, t.enc.buf.read i =
          if i < s.enc.bufLen then s.enc.buf.read i else forms.flatten[i - s.enc.bufLen]?) ∧
        t.enc.rsp = some { status := .ok, info := .nothing, rows := [] }

/-- A row with a value of 2^31 or more is rejected whole, with the lowest offending column, before anything else is looked
at (R60, R108, R116). -/
def Obligations.WriteRowRejectsLowestBadColumn : Prop :=
  ∀ (s : State) (row : List Word) (c : Nat) (w : Word),
    row[c]? = some w → 2 ^ 31 ≤ w.toNat →
    (∀ j u, j < c → row[j]? = some u → u.toNat < 2 ^ 31) →
      ∃ t, exec (.writeRow row) s = .next t ∧ EncoderAnswers .valueOutOfRange (.column c) s t

/-- A valid row whose bytes do not fit below `BUF_CAP` is rejected whole; with `BUF_CAP = ∞` that fault does not exist
(R71, R112). -/
def Obligations.WriteRowOverflowChangesNothing : Prop :=
  ∀ (s : State) (row : List Word), (∀ w ∈ row, w.toNat < 2 ^ 31) →
    (∀ c, s.enc.cfg.bufCap = some c → c < s.enc.bufLen + (rowForms s.enc row).flatten.length →
      ∃ t, exec (.writeRow row) s = .next t ∧ EncoderAnswers .bufferOverflow .nothing s t) ∧
    (s.enc.cfg.bufCap = none →
      ∃ t, exec (.writeRow row) s = .next t ∧ t.enc.rsp = some { status := .ok, info := .nothing, rows := [] })

/-- The first row, and a row with a refresh due, occupy exactly 4N bytes (R61, R72 items 1 and 2). -/
def Obligations.ForcedRowTakesFourBytesAColumn : Prop :=
  ∀ (s : State) (row : List Word), RowOk s.enc.cfg.n row → s.enc.cfg.bufCap = none →
    (s.enc.first = true ∨ (0 < s.enc.cfg.r ∧ s.enc.run = s.enc.cfg.r)) →
      ∃ t, exec (.writeRow row) s = .next t ∧ t.enc.bufLen = s.enc.bufLen + 4 * s.enc.cfg.n

/-- Counting rows from a reset, row k is forced raw exactly when k is a multiple of R+1, and with R = 0 only row 0 is
(R61). -/
def Obligations.RefreshPeriodIsRPlusOne : Prop :=
  ∀ (s : State) (rows : List (List Word)), s.enc.Inv → s.enc.first = true → s.enc.cfg.bufCap = none →
    (∀ row ∈ rows, RowOk s.enc.cfg.n row) →
      ∃ t, writeRows rows s = .next t ∧
        (0 < s.enc.cfg.r → (forcedRaw t.enc = true ↔ rows.length % (s.enc.cfg.r + 1) = 0)) ∧
        (s.enc.cfg.r = 0 → (forcedRaw t.enc = true ↔ rows = []))

/-- A row that is written takes at most 4 bytes a column and at least 1, at least 3 in variant 1 and at least 2 in
variant 2 (R38, R72 item 6). -/
def Obligations.RowLengthBounds : Prop :=
  ∀ (s : State) (row : List Word), s.enc.last.length = s.enc.cfg.n → RowOk s.enc.cfg.n row →
    s.enc.cfg.bufCap = none →
      ∃ t, exec (.writeRow row) s = .next t ∧
        t.enc.bufLen ≤ s.enc.bufLen + 4 * s.enc.cfg.n ∧
        s.enc.bufLen + s.enc.cfg.n ≤ t.enc.bufLen ∧
        (s.enc.cfg.variant = .v1 → s.enc.bufLen + 3 * s.enc.cfg.n ≤ t.enc.bufLen) ∧
        (s.enc.cfg.variant = .v2 → s.enc.bufLen + 2 * s.enc.cfg.n ≤ t.enc.bufLen)

/-- `E_RESET` (R90): the encoder's reset state, answered `OK`; the next row is forced raw; nothing else changes. -/
def Obligations.EncoderResetCommand : Prop :=
  ∀ s : State, ∃ t, exec .eReset s = .next t ∧
    t = { s with
      enc := {
        cfg := s.enc.cfg
        last := List.replicate s.enc.cfg.n 0
        first := true
        run := 0
        rows := 0
        buf := []
        bufLen := 0
        rsp := some { status := .ok, info := .nothing, rows := [] } } } ∧
    forcedRaw t.enc = true

/-- `GET_DATA` (R91): the bytes 0 .. BUF_LEN-1 in order; nothing changes. -/
def Obligations.GetDataReturnsTheBuffer : Prop :=
  ∀ s : State, s.enc.Inv →
    ∃ bs t, exec .getData s = .next t ∧ EncoderAnswers .ok (.data bs) s t ∧
      bs.length = s.enc.bufLen ∧ ∀ i < s.enc.bufLen, bs[i]? = s.enc.buf.read i

/-- `GET_USIZE` and `GET_CSIZE` (R92, R94); by the invariant the first is at most four times the second. -/
def Obligations.EncoderSizesAnswer : Prop :=
  ∀ s : State,
    (∃ t, exec .getUsize s = .next t ∧ EncoderAnswers .ok (.size (s.enc.rows * s.enc.cfg.n * 4)) s t) ∧
    (∃ t, exec .getCsize s = .next t ∧ EncoderAnswers .ok (.size s.enc.bufLen) s t) ∧
    (s.enc.Inv → s.enc.rows * s.enc.cfg.n * 4 ≤ 4 * s.enc.bufLen)

/-- `GET_RATIO` (R95, R109): the exact pair, or `MetricUndefined` when no byte has been written; nothing changes. -/
def Obligations.EncoderRatioAnswers : Prop :=
  ∀ s : State,
    (s.enc.bufLen ≠ 0 → ∃ t, exec .getRatio s = .next t ∧
      EncoderAnswers .ok (.pair (s.enc.rows * s.enc.cfg.n * 4) s.enc.bufLen) s t) ∧
    (s.enc.bufLen = 0 → ∃ t, exec .getRatio s = .next t ∧ EncoderAnswers .metricUndefined .nothing s t)

/-- The buffer is append-only (R20, R41 (a)): a step changes no byte below `BUF_LEN` that stays below it, and only the
reset pin and `E_RESET` shorten it, to nothing. -/
def Obligations.BufferIsAppendOnly : Prop :=
  ∀ s t : State, s.enc.Inv → step s = .next t →
    (∀ i, i < s.enc.bufLen → i < t.enc.bufLen → t.enc.buf.read i = s.enc.buf.read i) ∧
    (t.enc.bufLen < s.enc.bufLen → t.enc.bufLen = 0 ∧ t.enc.buf = [] ∧ EncoderResetNext s)

/-! ## The decoder -/

/-- `DECOMPRESS` on a decoder without a fault (R73 step 1): the chunk is taken, `D_POS` is 0 and no row is complete; no
other register changes. That the forms run in later steps, and that the block's last answer is withdrawn, are the model's
choices (log 4, log 7). -/
def Obligations.DecompressTakesTheChunk : Prop :=
  ∀ (s : State) (chunk : List Byte), s.dec.fault = 0 →
    ∃ t a, exec (.decompress chunk) s = .next t ∧
      t = { s with dec := { s.dec with active := some a, rsp := none } } ∧
      a.len = chunk.length ∧ a.pos = 0 ∧ a.rows = [] ∧ Memory.Dense a.chunk chunk.length ∧
      ∀ i, a.chunk.read i = chunk[i]?

/-- `Refused`: `DECOMPRESS` while a fault is latched, with the latched code (R115 (a)); and a command code that the block
does not have, 6 or 7 on the encoder, 1, 2 or 7 on the decoder (R89, R115 (b)). No register changes, only the answer. That
the command stands in `inputs` and the step that refuses it takes it from there is the model's choice (log 3, log 13), as is
that the answer stands in `rsp` (log 7). A decoder that runs an operation takes no command (R100). -/
def Obligations.RefusedCommandsChangeNothing : Prop :=
  (∀ (s : State) (chunk : List Byte), s.dec.fault ≠ 0 →
    ∃ t, exec (.decompress chunk) s = .next t ∧ DecoderAnswers .refused (.latched s.dec.fault) s t) ∧
  (∀ (s : State) (c : Command) (rest : List Input), s.inputs = .command c :: rest → c.block = .encoder →
    c.op ∈ [6#3, 7#3] →
      ∃ t info, step s = .next t ∧ EncoderAnswers .refused info { s with inputs := rest } t) ∧
  (∀ (s : State) (c : Command) (rest : List Input), s.inputs = .command c :: rest → c.block = .decoder →
    s.dec.active = none → c.op ∈ [1#3, 2#3, 7#3] →
      ∃ t info, step s = .next t ∧ DecoderAnswers .refused info { s with inputs := rest } t)

/-- A raw form commits its value, whatever the column held and whether or not it had a reference (R76, R84). -/
def Obligations.RawFormCommitsItsValue : Prop :=
  ∀ (s : State) (a : Decoding) (v : Value), s.dec.Inv → s.dec.active = some a →
    ∃ t, exec (.raw v) s = .next t ∧ CommitsValue v 4 s t

/-- Each of the six delta forms commits last + magnitude (sign 1) or last - magnitude (sign 0), if the column has a
reference and the sum is in range (R77 to R84); canonical or not (R87). -/
def Obligations.DeltaFormsCommitTheSum : Prop :=
  ∀ (s : State) (a : Decoding) (sg : Bool) (x : Value), s.dec.Inv → s.dec.active = some a →
    hasReference s.dec s.dec.cur = true →
    (∀ m : BitVec 22, (x.toNat : Int) = (lastValue s.dec s.dec.cur).toNat + (if sg then (m.toNat : Int) else -m.toNat) →
      ∃ t, exec (.v1d3 sg m) s = .next t ∧ CommitsValue x 3 s t) ∧
    (∀ m : BitVec 13, (x.toNat : Int) = (lastValue s.dec s.dec.cur).toNat + (if sg then (m.toNat : Int) else -m.toNat) →
      ∃ t, exec (.v2d2 sg m) s = .next t ∧ CommitsValue x 2 s t) ∧
    (∀ m : BitVec 21, (x.toNat : Int) = (lastValue s.dec s.dec.cur).toNat + (if sg then (m.toNat : Int) else -m.toNat) →
      ∃ t, exec (.v2d3 sg m) s = .next t ∧ CommitsValue x 3 s t) ∧
    (∀ m : BitVec 5, (x.toNat : Int) = (lastValue s.dec s.dec.cur).toNat + (if sg then (m.toNat : Int) else -m.toNat) →
      ∃ t, exec (.v3d1 sg m) s = .next t ∧ CommitsValue x 1 s t) ∧
    (∀ m : BitVec 12, (x.toNat : Int) = (lastValue s.dec s.dec.cur).toNat + (if sg then (m.toNat : Int) else -m.toNat) →
      ∃ t, exec (.v3d2 sg m) s = .next t ∧ CommitsValue x 2 s t) ∧
    (∀ m : BitVec 20, (x.toNat : Int) = (lastValue s.dec s.dec.cur).toNat + (if sg then (m.toNat : Int) else -m.toNat) →
      ∃ t, exec (.v3d3 sg m) s = .next t ∧ CommitsValue x 3 s t)

/-- A delta form for a column without a reference raises `NoReference` and commits nothing, even if the sum would leave the
range (R83, R114, R116, R117). -/
def Obligations.DeltaWithoutReferenceFaults : Prop :=
  ∀ (s : State) (a : Decoding) (sg : Bool), s.dec.active = some a → hasReference s.dec s.dec.cur = false →
    (∀ m, ∃ t, exec (.v1d3 sg m) s = .next t ∧ LatchesFault 6 .noReference (.column s.dec.cur) a s t) ∧
    (∀ m, ∃ t, exec (.v2d2 sg m) s = .next t ∧ LatchesFault 6 .noReference (.column s.dec.cur) a s t) ∧
    (∀ m, ∃ t, exec (.v2d3 sg m) s = .next t ∧ LatchesFault 6 .noReference (.column s.dec.cur) a s t) ∧
    (∀ m, ∃ t, exec (.v3d1 sg m) s = .next t ∧ LatchesFault 6 .noReference (.column s.dec.cur) a s t) ∧
    (∀ m, ∃ t, exec (.v3d2 sg m) s = .next t ∧ LatchesFault 6 .noReference (.column s.dec.cur) a s t) ∧
    (∀ m, ∃ t, exec (.v3d3 sg m) s = .next t ∧ LatchesFault 6 .noReference (.column s.dec.cur) a s t)

/-- A delta form that would drive the column below 0 or to 2^31 or above raises `DecodedOutOfRange` with that integer and
commits nothing (R83, R113, R117). -/
def Obligations.DeltaOutOfRangeFaults : Prop :=
  ∀ (s : State) (a : Decoding) (sg : Bool) (x : Int), s.dec.active = some a →
    hasReference s.dec s.dec.cur = true → (x < 0 ∨ 2 ^ 31 ≤ x) →
    (∀ m : BitVec 22, x = (lastValue s.dec s.dec.cur).toNat + (if sg then (m.toNat : Int) else -m.toNat) →
      ∃ t, exec (.v1d3 sg m) s = .next t ∧ LatchesFault 5 .decodedOutOfRange (.outOfRange s.dec.cur x) a s t) ∧
    (∀ m : BitVec 13, x = (lastValue s.dec s.dec.cur).toNat + (if sg then (m.toNat : Int) else -m.toNat) →
      ∃ t, exec (.v2d2 sg m) s = .next t ∧ LatchesFault 5 .decodedOutOfRange (.outOfRange s.dec.cur x) a s t) ∧
    (∀ m : BitVec 21, x = (lastValue s.dec s.dec.cur).toNat + (if sg then (m.toNat : Int) else -m.toNat) →
      ∃ t, exec (.v2d3 sg m) s = .next t ∧ LatchesFault 5 .decodedOutOfRange (.outOfRange s.dec.cur x) a s t) ∧
    (∀ m : BitVec 5, x = (lastValue s.dec s.dec.cur).toNat + (if sg then (m.toNat : Int) else -m.toNat) →
      ∃ t, exec (.v3d1 sg m) s = .next t ∧ LatchesFault 5 .decodedOutOfRange (.outOfRange s.dec.cur x) a s t) ∧
    (∀ m : BitVec 12, x = (lastValue s.dec s.dec.cur).toNat + (if sg then (m.toNat : Int) else -m.toNat) →
      ∃ t, exec (.v3d2 sg m) s = .next t ∧ LatchesFault 5 .decodedOutOfRange (.outOfRange s.dec.cur x) a s t) ∧
    (∀ m : BitVec 20, x = (lastValue s.dec s.dec.cur).toNat + (if sg then (m.toNat : Int) else -m.toNat) →
      ∃ t, exec (.v3d3 sg m) s = .next t ∧ LatchesFault 5 .decodedOutOfRange (.outOfRange s.dec.cur x) a s t)

/-- A form whose announced bytes are not all in the chunk raises `TruncatedStream` with its position and changes nothing
else, before its column is looked at (R74, R107 (a), R116). That a step of its own inside the running `DECOMPRESS` meets the
incomplete form, with nothing presented by the host, is the model's choice (log 3, log 4). -/
def Obligations.IncompleteFormTruncates : Prop :=
  ∀ (s : State) (a : Decoding) (b : Byte), s.dec.Inv → s.inputs = [] → s.dec.active = some a →
    a.chunk.read a.pos = some b → a.len < a.pos + formLength (classify s.dec.cfg.variant b) →
      ∃ t, step s = .next t ∧ LatchesFault 1 .truncatedStream (.position a.pos s.dec.cur) a s t

/-- The end of the chunk (R29, R73 steps 3 and 4, R85): inside a row it is `TruncatedStream`; at a row boundary the rows
are returned with `OK` and the two metrics are set. That this is a step of its own is the model's choice (log 4). -/
def Obligations.EndOfChunkFinishesOrTruncates : Prop :=
  ∀ (s : State) (a : Decoding), s.inputs = [] → s.dec.active = some a → a.pos = a.len →
    (s.dec.cur ≠ 0 → ∃ t, step s = .next t ∧ LatchesFault 1 .truncatedStream (.position a.len s.dec.cur) a s t) ∧
    (s.dec.cur = 0 → ∃ t, step s = .next t ∧
      t = { s with
        dec := { s.dec with
          comp := a.len
          uncomp := a.rows.length * s.dec.cfg.n * 4
          active := none
          rsp := some { status := .ok, info := .nothing, rows := a.rows } } })

/-- `D_GET_USIZE`, `D_GET_CSIZE` and `D_GET_STATUS` (R96, R97, R99), with or without a latched fault. -/
def Obligations.DecoderSizesAndStatusAnswer : Prop :=
  ∀ s : State,
    (∃ t, exec .dGetUsize s = .next t ∧ DecoderAnswers .ok (.size s.dec.uncomp) s t) ∧
    (∃ t, exec .dGetCsize s = .next t ∧ DecoderAnswers .ok (.size s.dec.comp) s t) ∧
    (∃ t, exec .dGetStatus s = .next t ∧ DecoderAnswers .ok (.faultCode s.dec.fault) s t)

/-- `D_GET_RATIO` (R98, R109): the exact pair, or `MetricUndefined` when `D_COMP` is 0, which does not touch
`D_FAULT`. -/
def Obligations.DecoderRatioAnswers : Prop :=
  ∀ s : State,
    (s.dec.comp ≠ 0 → ∃ t, exec .dGetRatio s = .next t ∧ DecoderAnswers .ok (.pair s.dec.uncomp s.dec.comp) s t) ∧
    (s.dec.comp = 0 → ∃ t, exec .dGetRatio s = .next t ∧ DecoderAnswers .metricUndefined .nothing s t)

/-- The word a column shows (R84, R102): `v - SIGN_OFFSET` in two's complement for a column in `SIGNED`, `v` itself for any
other. -/
def Obligations.OutputWordIsTheResignedValue : Prop :=
  ∀ (cfg : DecConfig) (c : Nat) (v : Value), cfg.Valid →
    (c ∈ cfg.signed → (outputWord cfg c v).toInt = (v.toNat : Int) - cfg.signOffset) ∧
    (c ∉ cfg.signed → (outputWord cfg c v).toNat = v.toNat)

/-- A signed value that the producer can carry comes back as it was (R101, R103): its unsigned image is a column value, and
a column in `SIGNED` shows the signed value again. -/
def Obligations.SignedColumnShowsTheProducersValue : Prop :=
  ∀ (cfg : DecConfig) (c : Nat) (x : Int), cfg.Valid → c ∈ cfg.signed → Signifiable cfg.signOffset x →
    resignify cfg.signOffset (BitVec.ofInt 31 (unsignify cfg.signOffset x)).toNat = x ∧
    (outputWord cfg c (BitVec.ofInt 31 (unsignify cfg.signOffset x))).toInt = x

/-! ## The whole machine -/

/-- Every step keeps the invariant (R21, R30). -/
def Obligations.StepKeepsTheInvariant : Prop :=
  ∀ s t : State, s.Inv → step s = .next t → t.Inv

/-- The reset state has the invariant, with any parameters in their domain; so has `State.reset`, whose parameters are the
model's choice (log 1). -/
def Obligations.ResetHasTheInvariant : Prop :=
  (∀ (ec : EncConfig) (dc : DecConfig), ec.Valid → dc.Valid → (State.resetWith ec dc).Inv) ∧ State.reset.Inv

/-- From a state with the invariant, whatever the host presents, a step answers a next state: no fault, no refusal; what
the spec calls a fault is an answer (R117). -/
def Obligations.EveryStepFromTheInvariantCompletes : Prop :=
  ∀ s : State, s.Inv → ∃ t, step s = .next t

/-- The encoder's state after construction, the reset pin or `E_RESET`, and what the operations answer in it (R126). -/
def Obligations.EncoderResetState : Prop :=
  ∀ (ec : EncConfig) (s : State),
    ((∃ dc, s = State.resetWith ec dc) ∨
      (∃ p rest, p.enc.cfg = ec ∧ p.inputs = .rst .encoder :: rest ∧ step p = .next s) ∨
      (∃ p, p.enc.cfg = ec ∧ exec .eReset p = .next s)) →
    s.enc.cfg = ec ∧ s.enc.last = List.replicate ec.n 0 ∧ s.enc.first = true ∧ s.enc.run = 0 ∧ s.enc.rows = 0 ∧
    s.enc.buf = [] ∧ s.enc.bufLen = 0 ∧
    (∃ t, exec .getUsize s = .next t ∧ EncoderAnswers .ok (.size 0) s t) ∧
    (∃ t, exec .getCsize s = .next t ∧ EncoderAnswers .ok (.size 0) s t) ∧
    (∃ t, exec .getRatio s = .next t ∧ EncoderAnswers .metricUndefined .nothing s t) ∧
    (∃ t, exec .getData s = .next t ∧ EncoderAnswers .ok (.data []) s t)

/-- The decoder's state after construction or the reset pin, and what the operations answer in it (R127). -/
def Obligations.DecoderResetState : Prop :=
  ∀ (dc : DecConfig) (s : State),
    ((∃ ec, s = State.resetWith ec dc) ∨
      (∃ p rest, p.dec.cfg = dc ∧ p.inputs = .rst .decoder :: rest ∧ step p = .next s)) →
    s.dec.cfg = dc ∧ s.dec.last = List.replicate dc.n 0 ∧ s.dec.valid = List.replicate dc.n false ∧ s.dec.cur = 0 ∧
    s.dec.rowAcc = List.replicate dc.n 0 ∧ s.dec.fault = 0 ∧ s.dec.comp = 0 ∧ s.dec.uncomp = 0 ∧
    s.dec.active = none ∧
    (∃ t, exec .dGetUsize s = .next t ∧ DecoderAnswers .ok (.size 0) s t) ∧
    (∃ t, exec .dGetCsize s = .next t ∧ DecoderAnswers .ok (.size 0) s t) ∧
    (∃ t, exec .dGetRatio s = .next t ∧ DecoderAnswers .metricUndefined .nothing s t) ∧
    (∃ t, exec .dGetStatus s = .next t ∧ DecoderAnswers .ok (.faultCode 0) s t)

/-- The reset pin (R125, R128): in any state, with or without an operation in progress, it puts its block into its reset
state, keeps the parameters, abandons the operation without an answer and leaves the other block alone. That a pulse stands in
`inputs`, and that the block's last answer is withdrawn too, are the model's choices (log 3, log 7). -/
def Obligations.ResetPinResetsItsBlockOnly : Prop :=
  ∀ (s : State) (rest : List Input),
    (s.inputs = .rst .encoder :: rest →
      ∃ t, step s = .next t ∧ t.inputs = rest ∧ t.dec = s.dec ∧ t.enc = EncState.reset s.enc.cfg) ∧
    (s.inputs = .rst .decoder :: rest →
      ∃ t, step s = .next t ∧ t.inputs = rest ∧ t.enc = s.enc ∧ t.dec = DecState.reset s.dec.cfg)

/-- With no operation in progress and nothing presented, the machine stays as it is: each block waits for its first command
(R125). That a waiting machine takes steps at all is the model's choice (log 3). -/
def Obligations.MachineWaitsForCommands : Prop :=
  ∀ s : State, s.dec.active = none →
    (s.inputs = [] → step s = .next s) ∧
    (∀ rest, s.inputs = .idle :: rest → step s = .next { s with inputs := rest })

/-- No step changes a parameter of either block (R7, R33, R128). -/
def Obligations.ConfigurationNeverChanges : Prop :=
  ∀ s t : State, step s = .next t → t.enc.cfg = s.enc.cfg ∧ t.dec.cfg = s.dec.cfg

/-- The two blocks share no state (R3, R123): an encoder command leaves the decoder alone, a decoder command and a wire
form leave the encoder alone, and none touches what the host has still to present. -/
def Obligations.BlocksShareNothing : Prop :=
  (∀ (s t : State) (i : Instr) (row : List Word),
    i ∈ [.writeRow row, .eReset, .getData, .getUsize, .getCsize, .getRatio] →
    exec i s = .next t → t.dec = s.dec ∧ t.inputs = s.inputs) ∧
  (∀ (s t : State) (i : Instr) (chunk : List Byte),
    i ∈ [.decompress chunk, .dGetUsize, .dGetCsize, .dGetRatio, .dGetStatus] →
    exec i s = .next t → t.enc = s.enc ∧ t.inputs = s.inputs) ∧
  (∀ (s t : State) (i : Instr) (sg : Bool) (v : Value) (m1 : BitVec 22) (m2 : BitVec 13) (m3 : BitVec 21)
      (m4 : BitVec 5) (m5 : BitVec 12) (m6 : BitVec 20),
    i ∈ [.raw v, .v1d3 sg m1, .v2d2 sg m2, .v2d3 sg m3, .v3d1 sg m4, .v3d2 sg m5, .v3d3 sg m6] →
    exec i s = .next t → t.enc = s.enc ∧ t.inputs = s.inputs)

/-- Until the decoder's reset pin, a latched fault stays, with every register of the decoder but its answer, and a valid
reference stays valid (R28, R30 items 3 and 4, R118). -/
def Obligations.FaultAndReferencesStayUntilReset : Prop :=
  ∀ s t : State, s.dec.Inv → step s = .next t → s.inputs.head? ≠ some (.rst .decoder) →
    (s.dec.fault ≠ 0 → t.dec = { s.dec with rsp := t.dec.rsp }) ∧
    (∀ c, hasReference s.dec c = true → hasReference t.dec c = true)

/-- A `DECOMPRESS` ends: R138 says that it terminates, after at most one turn of its loop for each byte. The count stated
here, at most one step for each byte left and one more for the end of the chunk, with nothing else presented, is the model's
choice (log 3, log 4): R138 forbids a model to assume a number of cycles, and a step is none (log 5). -/
def Obligations.DecompressTerminates : Prop :=
  ∀ (s : State) (a : Decoding), s.Inv → s.inputs = [] → s.dec.active = some a →
    ∃ t, runFor (a.len - a.pos + 1) s = .next t ∧ t.dec.active = none ∧ t.dec.rsp.isSome = true

/-- The steps of a `DECOMPRESS` amount to the one operation of R73 (R4, R100): with an idle decoder and nothing else
presented, taking the chunk, running its forms and ending it leads to exactly the decoder, the answer included, that R73
computes over the bytes of the chunk; the encoder is not touched and no input is left. That there are such steps, and how
many, is the model's choice (log 3, log 4). -/
def Obligations.DecompressStepsAreTheOperation : Prop :=
  ∀ (s : State) (chunk : List Byte), s.Inv → s.dec.active = none →
    decompressAll chunk s = .next { s with dec := decompressOperation chunk s.dec, inputs := [] }

/-- A pair with matching parameters, freshly reset, is in step (R129, R30 item 5). -/
def Obligations.FreshPairIsSynced : Prop :=
  ∀ (ec : EncConfig) (dc : DecConfig), dc.variant = ec.variant → dc.n = ec.n → Synced (State.resetWith ec dc)

/-- The round trip (R75, R88, R30 item 5), for one more piece of a stream cut at row boundaries: if encoder and decoder are
in step, any valid rows are written, and exactly the bytes they append are given to the decoder as one chunk, then
`DECOMPRESS` answers `OK` with those rows (columns in `SIGNED` re-signed), the last values agree, and the pair is in step
again. From a freshly reset pair it is R88, chunk after chunk. The steps that one `DECOMPRESS` takes are the model's choice
(log 4). -/
def Obligations.WrittenRowsDecompressToThemselves : Prop :=
  ∀ (s : State) (rows : List (List Word)), s.Inv → Synced s →
    (∀ row ∈ rows, RowOk s.enc.cfg.n row) →
    (∀ c, s.enc.cfg.bufCap = some c → s.enc.bufLen + 4 * s.enc.cfg.n * rows.length ≤ c) →
      ∃ t bs u, writeRows rows s = .next t ∧
        t.enc.buf.readBytes s.enc.bufLen (t.enc.bufLen - s.enc.bufLen) = some bs ∧
        decompressAll bs t = .next u ∧
        u.dec.rsp = some { status := .ok, info := .nothing, rows := rows.map (outputRow s.dec.cfg) } ∧
        u.enc = t.enc ∧ Synced u ∧
        (rows ≠ [] → u.dec.last = u.enc.last) ∧
        u.dec.comp = bs.length ∧ u.dec.uncomp = rows.length * s.dec.cfg.n * 4

/-- A chunk may be cut at a row boundary (R75): if `DECOMPRESS(A)` answers `OK`, then `DECOMPRESS(B)` after it and
`DECOMPRESS(A ++ B)` instead answer the same status and, put together, the same rows, and leave the same references, cursor
and fault. The steps that one `DECOMPRESS` takes are the model's choice (log 4). -/
def Obligations.ChunksMayBeCutAtRowBoundaries : Prop :=
  ∀ (s u v : State) (A B : List Byte) (rowsA : List Row) (r : Response), s.Inv →
    s.dec.active = none → s.dec.fault = 0 →
    decompressAll A s = .next u → u.dec.rsp = some { status := .ok, info := .nothing, rows := rowsA } →
    decompressAll B u = .next v → v.dec.rsp = some r →
      ∃ w q, decompressAll (A ++ B) s = .next w ∧ w.dec.rsp = some q ∧
        q.status = r.status ∧ q.rows = rowsA ++ r.rows ∧
        w.dec.last = v.dec.last ∧ w.dec.valid = v.dec.valid ∧ w.dec.cur = v.dec.cur ∧ w.dec.fault = v.dec.fault

/-- Re-signing never reaches the delta chain (R104, R105): two machines that differ at most in `SIGNED`, `SIGN_OFFSET` and
what is shown through them go on differing in nothing else. -/
def Obligations.ResigningNeverReachesTheReferences : Prop :=
  ∀ s s' t : State, SameButResigning s s' → step s = .next t →
    ∃ t', step s' = .next t' ∧ SameButResigning t t'

/-- An instance is built only for parameters in their domain, and then in its reset state (R7, R125). -/
def Obligations.OnlyValidParametersBuild : Prop :=
  (∀ (variant n r : Nat) (bufCap : Option Nat),
    (1 ≤ variant ∧ variant ≤ 3 ∧ 1 ≤ n ∧ r < 2 ^ 32 →
      ∃ e, buildEncoder variant n r bufCap = some e ∧ variantOf variant = some e.cfg.variant ∧ e.cfg.n = n ∧
        e.cfg.r = r ∧ e.cfg.bufCap = bufCap ∧ e = EncState.reset e.cfg) ∧
    (¬(1 ≤ variant ∧ variant ≤ 3 ∧ 1 ≤ n ∧ r < 2 ^ 32) → buildEncoder variant n r bufCap = none)) ∧
  (∀ (variant n signOffset : Nat) (signed : List Nat), signed.Pairwise (· < ·) →
    (1 ≤ variant ∧ variant ≤ 3 ∧ 1 ≤ n ∧ (∀ i ∈ signed, i < n) ∧ signOffset < 2 ^ 31 →
      ∃ d, buildDecoder variant n signed signOffset = some d ∧ variantOf variant = some d.cfg.variant ∧ d.cfg.n = n ∧
        d.cfg.signed = signed ∧ d.cfg.signOffset = signOffset ∧ d = DecState.reset d.cfg) ∧
    (¬(1 ≤ variant ∧ variant ≤ 3 ∧ 1 ≤ n ∧ (∀ i ∈ signed, i < n) ∧ signOffset < 2 ^ 31) →
      buildDecoder variant n signed signOffset = none))
end

