-- ==== Sys2Proof/Laws/Decode.lean ====
section
/-! SUPPORT. The bits of a concatenation, the lead byte of each form, and the row bus. -/

namespace Sys2Proof

/-- The bits of a concatenation (R10). -/
@[simp] theorem getLsbD_cat (w : Nat) {m n : Nat} (x : BitVec m) (y : BitVec n) (i : Nat) :
    (cat w x y).getLsbD i = (decide (i < w) && if i < n then y.getLsbD i else x.getLsbD (i - n)) := by
  simp only [cat, BitVec.getLsbD_setWidth, BitVec.getLsbD_append]

/-- The same, for a bit known to be in range. -/
@[simp] theorem getElem_cat (w : Nat) {m n : Nat} (x : BitVec m) (y : BitVec n) (i : Nat) (h : i < w) :
    (cat w x y)[i] = if i < n then y.getLsbD i else x.getLsbD (i - n) := by
  rw [← BitVec.getLsbD_eq_getElem, getLsbD_cat]
  simp [h]

/-- The number a concatenation spells, where it loses no bit. -/
theorem toNat_cat (w : Nat) {m n : Nat} (x : BitVec m) (y : BitVec n) (h : m + n ≤ w) :
    (cat w x y).toNat = x.toNat * 2 ^ n + y.toNat := by
  have hx : x.toNat * 2 ^ n + y.toNat < 2 ^ w := by
    calc x.toNat * 2 ^ n + y.toNat < x.toNat * 2 ^ n + 2 ^ n := by have := y.isLt; omega
      _ = (x.toNat + 1) * 2 ^ n := by ring
      _ ≤ 2 ^ m * 2 ^ n := Nat.mul_le_mul_right _ x.isLt
      _ = 2 ^ (m + n) := by ring
      _ ≤ 2 ^ w := Nat.pow_le_pow_right (by decide) h
  rw [cat, BitVec.toNat_setWidth, BitVec.toNat_append, ← Nat.shiftLeft_add_eq_or_of_lt y.isLt, Nat.shiftLeft_eq,
    Nat.mod_eq_of_lt hx]

/-- What the decoder can answer for a form (R53, R74): the instruction of that form when its bytes are all there, else a
truncation. -/
theorem decodeAs_cases (f : Form) (b0 : Byte) (rest : List Byte) :
    (formLength f ≤ rest.length + 1 ∧ ∃ i, decodeAs f b0 rest = .ok i ∧ formOf i = some f) ∨
    (rest.length + 1 < formLength f ∧ decodeAs f b0 rest = .error (.truncated f)) := by
  rcases rest with _ | ⟨b1, _ | ⟨b2, _ | ⟨b3, rest⟩⟩⟩ <;> cases f <;>
    first
      | exact .inl ⟨by simp only [formLength, List.length_cons, List.length_nil]; omega, _, rfl, rfl⟩
      | exact .inr ⟨by simp [formLength], rfl⟩

/-- A form that decodes is one its lead byte announces, and its bytes are all there (R53, R74). -/
theorem decodeForm_ok (v : Variant) (bs : List Byte) (i : Instr) (h : decodeForm v bs = .ok i) :
    ∃ b rest, bs = b :: rest ∧ formOf i = some (classify v b) ∧ formLength (classify v b) ≤ bs.length := by
  cases bs with
  | nil => cases h
  | cons b rest =>
    refine ⟨b, rest, rfl, ?_⟩
    obtain ⟨hl, j, hj, hf⟩ | ⟨-, he⟩ := decodeAs_cases (classify v b) b rest
    · cases hj.symm.trans h
      exact ⟨hf, hl⟩
    · cases he.symm.trans h

/-- Every form has at least one byte. -/
theorem formLength_pos (f : Form) : 0 < formLength f := by
  cases f <;> decide

/-- No form has more than four bytes. -/
theorem formLength_le (f : Form) : formLength f ≤ formLength .raw := by
  cases f <;> decide

/-- The row bus carries a row of `n` values through unchanged (R100). -/
theorem unpackRow_packRow (row : List Word) : unpackRow row.length (packRow row) = row := by
  induction row with
  | nil => rfl
  | cons w ws ih =>
    rw [List.length_cons, unpackRow, packRow, Nat.add_mul_div_left _ _ (by decide), Nat.div_eq_of_lt w.isLt,
      Nat.zero_add, ih]
    congr 1
    apply BitVec.eq_of_toNat_eq
    rw [BitVec.toNat_ofNat, Nat.add_mul_mod_self_left, Nat.mod_eq_of_lt w.isLt]

/-- The row at the port has as many values as the encoder has columns (R59). -/
@[simp] theorem length_unpackRow (n bus : Nat) : (unpackRow n bus).length = n := by
  induction n generalizing bus with
  | zero => rfl
  | succ n ih => rw [unpackRow, List.length_cons, ih]

end Sys2Proof
end

