-- ==== Sys2Proof/Laws/Memory.lean ====
section
/-! SUPPORT. The byte memories: a read after a write, the canonical form, and byte strings. -/

namespace Sys2Proof.Machine

/-- A read after a write at the same index. -/
@[simp] theorem Memory.read_write_same (m : Memory) (a : Nat) (b : Byte) :
    Memory.read (Memory.write m a b) a = some b := by
  induction m with
  | nil => simp [Memory.write, Memory.read]
  | cons c m ih =>
    unfold Memory.write
    split
    · simp [Memory.read]
    · split
      · simp [Memory.read]
      · rename_i h
        simp only [Memory.read]
        rw [if_neg (fun e => h e.symm)]
        exact ih

/-- A write leaves every other index alone. -/
theorem Memory.read_write_other (m : Memory) (a x : Nat) (b : Byte) (h : x ≠ a) :
    Memory.read (Memory.write m a b) x = Memory.read m x := by
  induction m with
  | nil => simp [Memory.write, Memory.read, Ne.symm h]
  | cons c m ih =>
    unfold Memory.write
    split
    · simp [Memory.read, Ne.symm h]
    · split
      · rename_i h2
        simp [Memory.read, ← h2, Ne.symm h]
      · simp only [Memory.read, ih]

/-- The indices of a memory after a write: the old ones and the one written. -/
theorem Memory.mem_write (m : Memory) (a : Nat) (b : Byte) (c : Host.Cell) (h : c ∈ Memory.write m a b) :
    c = (a, b) ∨ c ∈ m := by
  induction m with
  | nil => simpa [Memory.write] using h
  | cons d m ih =>
    unfold Memory.write at h
    split at h
    · simpa using h
    · split at h
      · rcases List.mem_cons.1 h with h | h
        · exact .inl h
        · exact .inr (List.mem_cons_of_mem _ h)
      · rcases List.mem_cons.1 h with h | h
        · exact .inr (h ▸ List.mem_cons_self)
        · exact (ih h).imp_right (List.mem_cons_of_mem _)

/-- A write keeps the canonical form. -/
theorem Memory.wf_write (m : Memory) (a : Nat) (b : Byte) (h : Memory.wf m) : Memory.wf (Memory.write m a b) := by
  induction m with
  | nil => simp [Memory.write]
  | cons c m ih =>
    obtain ⟨hc, hm⟩ := List.pairwise_cons.1 h
    unfold Memory.write
    split
    · rename_i h1
      refine List.pairwise_cons.2 ⟨?_, h⟩
      intro x hx
      rcases List.mem_cons.1 hx with rfl | hx
      · exact h1
      · exact Nat.lt_trans h1 (hc x hx)
    · split
      · rename_i h2
        refine List.pairwise_cons.2 ⟨?_, hm⟩
        intro x hx
        simpa [h2] using hc x hx
      · rename_i h1 h2
        refine List.pairwise_cons.2 ⟨?_, ih hm⟩
        intro x hx
        rcases Memory.mem_write m a b x hx with rfl | hx
        · exact Nat.lt_of_le_of_ne (Nat.le_of_not_lt h1) (Ne.symm h2)
        · exact hc x hx

/-- A string of writes keeps the canonical form. -/
theorem Memory.wf_writeBytes (bs : List Byte) (m : Memory) (a : Nat) (h : Memory.wf m) :
    Memory.wf (Memory.writeBytes m a bs) := by
  induction bs generalizing m a with
  | nil => exact h
  | cons b bs ih => exact ih _ _ (Memory.wf_write m a b h)

/-- A chunk is in the canonical form. -/
theorem Memory.wf_ofBytes (bs : List Byte) : Memory.wf (Memory.ofBytes bs) :=
  Memory.wf_writeBytes bs [] 0 List.Pairwise.nil

/-- A dense memory is in the canonical form. -/
theorem Memory.wf_of_dense (m : Memory) (len : Nat) (h : Memory.Dense m len) : Memory.wf m := by
  have := List.pairwise_lt_range (n := len)
  rw [← h, List.pairwise_map] at this
  exact this

/-- A write just above the last index appends. -/
theorem Memory.write_above (m : Memory) (a : Nat) (b : Byte) (h : ∀ c ∈ m, c.1 < a) :
    Memory.write m a b = m ++ [(a, b)] := by
  induction m with
  | nil => rfl
  | cons c m ih =>
    have hc := h c List.mem_cons_self
    unfold Memory.write
    rw [if_neg (by omega), if_neg (by omega), ih (fun x hx => h x (List.mem_cons_of_mem _ hx))]
    rfl

/-- The indices of a dense memory lie below its length. -/
theorem Memory.lt_of_dense (m : Memory) (len : Nat) (h : Memory.Dense m len) (c : Host.Cell) (hc : c ∈ m) :
    c.1 < len := by
  have : c.1 ∈ m.map Prod.fst := List.mem_map_of_mem hc
  rw [h] at this
  exact List.mem_range.1 this

/-- A byte appended at the length keeps a memory dense. -/
theorem Memory.dense_write (m : Memory) (len : Nat) (b : Byte) (h : Memory.Dense m len) :
    Memory.Dense (Memory.write m len b) (len + 1) := by
  rw [Memory.Dense, Memory.write_above m len b (Memory.lt_of_dense m len h), List.map_append, h, List.range_succ]
  rfl

/-- A byte string appended at the length keeps a memory dense. -/
theorem Memory.dense_writeBytes (bs : List Byte) (m : Memory) (len : Nat) (h : Memory.Dense m len) :
    Memory.Dense (Memory.writeBytes m len bs) (len + bs.length) := by
  induction bs generalizing m len with
  | nil => exact h
  | cons b bs ih =>
    have := ih _ _ (Memory.dense_write m len b h)
    rwa [Nat.add_assoc, Nat.add_comm 1] at this

/-- The indices a byte string is stored to read as the string, every other as before. -/
theorem Memory.read_writeBytes (bs : List Byte) (m : Memory) (a x : Nat) :
    Memory.read (Memory.writeBytes m a bs) x =
      if a ≤ x ∧ x < a + bs.length then bs[x - a]? else Memory.read m x := by
  induction bs generalizing m a with
  | nil =>
    rw [if_neg (by simp)]
    rfl
  | cons b bs ih =>
    rw [Memory.writeBytes, ih]
    by_cases h : x = a
    · subst h
      simp
    · rw [Memory.read_write_other _ _ _ _ h]
      by_cases h2 : a ≤ x ∧ x < a + (b :: bs).length
      · rw [if_pos h2, if_pos (by simp at h2; omega), show x - a = (x - (a + 1)) + 1 by omega]
        rfl
      · rw [if_neg h2, if_neg (by simp at h2 ⊢; omega)]

/-- A chunk reads as its byte sequence. -/
theorem Memory.read_ofBytes (bs : List Byte) (x : Nat) : Memory.read (Memory.ofBytes bs) x = bs[x]? := by
  rw [Memory.ofBytes, Memory.read_writeBytes]
  split
  · simp
  · rename_i h
    simp only [Memory.read]
    symm
    simpa using h

/-- A chunk is dense. -/
theorem Memory.dense_ofBytes (bs : List Byte) : Memory.Dense (Memory.ofBytes bs) bs.length := by
  have := Memory.dense_writeBytes bs [] 0 rfl
  rwa [Nat.zero_add] at this

/-- An unlisted index holds no byte, and a listed one does. -/
theorem Memory.isSome_read (m : Memory) (a : Nat) : (Memory.read m a).isSome = true ↔ a ∈ m.map Prod.fst := by
  induction m with
  | nil => simp [Memory.read]
  | cons c m ih =>
    simp only [Memory.read]
    split
    · simp_all
    · rename_i h
      simp [ih, Ne.symm h]

/-- In a dense memory exactly the indices below its length hold a byte. -/
theorem Memory.isSome_read_dense (m : Memory) (len a : Nat) (h : Memory.Dense m len) :
    (Memory.read m a).isSome = true ↔ a < len := by
  rw [Memory.isSome_read, h, List.mem_range]

/-- What `MemRead` answers, byte by byte. -/
theorem Memory.readBytes_eq_some (m : Memory) (a n : Nat) (bs : List Byte) :
    Memory.readBytes m a n = some bs ↔ bs.length = n ∧ ∀ i < n, Memory.read m (a + i) = bs[i]? := by
  induction n generalizing a bs with
  | zero =>
    constructor
    · intro h
      cases h
      exact ⟨rfl, fun i hi => absurd hi (Nat.not_lt_zero i)⟩
    · rintro ⟨h, -⟩
      rw [List.length_eq_zero_iff.1 h]
      rfl
  | succ n ih =>
    rw [Memory.readBytes]
    constructor
    · intro h
      split at h
      · rename_i b bs' h1 h2
        cases h
        obtain ⟨hl, hr⟩ := (ih _ _).1 h2
        refine ⟨by simp [hl], fun i hi => ?_⟩
        cases i with
        | zero => simpa using h1
        | succ i =>
          have := hr i (by omega)
          rw [show a + 1 + i = a + (i + 1) by omega] at this
          simpa using this
      · cases h
    · rintro ⟨hl, hr⟩
      cases bs with
      | nil => simp at hl
      | cons b bs =>
        have h0 : Memory.read m a = some b := by simpa using hr 0 (by omega)
        have h1 : Memory.readBytes m (a + 1) n = some bs := by
          refine (ih _ _).2 ⟨by simpa using hl, fun i hi => ?_⟩
          have := hr (i + 1) (by omega)
          rw [show a + 1 + i = a + (i + 1) by omega]
          simpa using this
        rw [h0, h1]

/-- Inside a dense memory `MemRead` succeeds. -/
theorem Memory.readBytes_isSome (m : Memory) (len a n : Nat) (h : Memory.Dense m len) (hn : a + n ≤ len) :
    ∃ bs, Memory.readBytes m a n = some bs := by
  induction n generalizing a with
  | zero => exact ⟨[], rfl⟩
  | succ n ih =>
    obtain ⟨b, hb⟩ := Option.isSome_iff_exists.1 ((Memory.isSome_read_dense m len a h).2 (by omega))
    obtain ⟨bs, hbs⟩ := ih (a + 1) (by omega)
    exact ⟨b :: bs, by rw [Memory.readBytes, hb, hbs]⟩

end Sys2Proof.Machine
end

