-- ==== Sys2Proof/Laws/State.lean ====
section
/-! SUPPORT. One lemma for each field and each update of the state, true by `rfl`. -/

namespace Sys2Proof.Machine

/-! ## Answers -/

@[simp] theorem respond_encoder_cfg (st : Status) (info : Info) (rows : List Row) (s : State) :
    (State.respond .encoder st info rows s).enc.cfg = s.enc.cfg := rfl
@[simp] theorem respond_encoder_last (st : Status) (info : Info) (rows : List Row) (s : State) :
    (State.respond .encoder st info rows s).enc.last = s.enc.last := rfl
@[simp] theorem respond_encoder_first (st : Status) (info : Info) (rows : List Row) (s : State) :
    (State.respond .encoder st info rows s).enc.first = s.enc.first := rfl
@[simp] theorem respond_encoder_run (st : Status) (info : Info) (rows : List Row) (s : State) :
    (State.respond .encoder st info rows s).enc.run = s.enc.run := rfl
@[simp] theorem respond_encoder_rows (st : Status) (info : Info) (rows : List Row) (s : State) :
    (State.respond .encoder st info rows s).enc.rows = s.enc.rows := rfl
@[simp] theorem respond_encoder_buf (st : Status) (info : Info) (rows : List Row) (s : State) :
    (State.respond .encoder st info rows s).enc.buf = s.enc.buf := rfl
@[simp] theorem respond_encoder_bufLen (st : Status) (info : Info) (rows : List Row) (s : State) :
    (State.respond .encoder st info rows s).enc.bufLen = s.enc.bufLen := rfl
@[simp] theorem respond_encoder_rsp (st : Status) (info : Info) (rows : List Row) (s : State) :
    (State.respond .encoder st info rows s).enc.rsp = some { status := st, info := info, rows := rows } := rfl
@[simp] theorem respond_encoder_dec (st : Status) (info : Info) (rows : List Row) (s : State) :
    (State.respond .encoder st info rows s).dec = s.dec := rfl
@[simp] theorem respond_decoder_cfg (st : Status) (info : Info) (rows : List Row) (s : State) :
    (State.respond .decoder st info rows s).dec.cfg = s.dec.cfg := rfl
@[simp] theorem respond_decoder_last (st : Status) (info : Info) (rows : List Row) (s : State) :
    (State.respond .decoder st info rows s).dec.last = s.dec.last := rfl
@[simp] theorem respond_decoder_valid (st : Status) (info : Info) (rows : List Row) (s : State) :
    (State.respond .decoder st info rows s).dec.valid = s.dec.valid := rfl
@[simp] theorem respond_decoder_cur (st : Status) (info : Info) (rows : List Row) (s : State) :
    (State.respond .decoder st info rows s).dec.cur = s.dec.cur := rfl
@[simp] theorem respond_decoder_rowAcc (st : Status) (info : Info) (rows : List Row) (s : State) :
    (State.respond .decoder st info rows s).dec.rowAcc = s.dec.rowAcc := rfl
@[simp] theorem respond_decoder_fault (st : Status) (info : Info) (rows : List Row) (s : State) :
    (State.respond .decoder st info rows s).dec.fault = s.dec.fault := rfl
@[simp] theorem respond_decoder_comp (st : Status) (info : Info) (rows : List Row) (s : State) :
    (State.respond .decoder st info rows s).dec.comp = s.dec.comp := rfl
@[simp] theorem respond_decoder_uncomp (st : Status) (info : Info) (rows : List Row) (s : State) :
    (State.respond .decoder st info rows s).dec.uncomp = s.dec.uncomp := rfl
@[simp] theorem respond_decoder_active (st : Status) (info : Info) (rows : List Row) (s : State) :
    (State.respond .decoder st info rows s).dec.active = s.dec.active := rfl
@[simp] theorem respond_decoder_rsp (st : Status) (info : Info) (rows : List Row) (s : State) :
    (State.respond .decoder st info rows s).dec.rsp = some { status := st, info := info, rows := rows } := rfl
@[simp] theorem respond_decoder_enc (st : Status) (info : Info) (rows : List Row) (s : State) :
    (State.respond .decoder st info rows s).enc = s.enc := rfl
@[simp] theorem respond_inputs (b : Block) (st : Status) (info : Info) (rows : List Row) (s : State) :
    (State.respond b st info rows s).inputs = s.inputs := by
  cases b <;> rfl
/-! ## The latch of a sticky fault -/

@[simp] theorem latch_cfg (st : Status) (d : DecState) :
    (d.latch st).cfg = d.cfg := rfl
@[simp] theorem latch_last (st : Status) (d : DecState) :
    (d.latch st).last = d.last := rfl
@[simp] theorem latch_valid (st : Status) (d : DecState) :
    (d.latch st).valid = d.valid := rfl
@[simp] theorem latch_cur (st : Status) (d : DecState) :
    (d.latch st).cur = d.cur := rfl
@[simp] theorem latch_rowAcc (st : Status) (d : DecState) :
    (d.latch st).rowAcc = d.rowAcc := rfl
@[simp] theorem latch_fault (st : Status) (d : DecState) :
    (d.latch st).fault = statusCode st := rfl
@[simp] theorem latch_comp (st : Status) (d : DecState) :
    (d.latch st).comp = d.comp := rfl
@[simp] theorem latch_uncomp (st : Status) (d : DecState) :
    (d.latch st).uncomp = d.uncomp := rfl
@[simp] theorem latch_active (st : Status) (d : DecState) :
    (d.latch st).active = none := rfl
@[simp] theorem latch_rsp (st : Status) (d : DecState) :
    (d.latch st).rsp = d.rsp := rfl
/-! ## The reset pin -/

@[simp] theorem hardwareReset_encoder_enc (s : State) :
    (s.hardwareReset .encoder).enc = EncState.reset s.enc.cfg := rfl
@[simp] theorem hardwareReset_encoder_dec (s : State) :
    (s.hardwareReset .encoder).dec = s.dec := rfl
@[simp] theorem hardwareReset_decoder_dec (s : State) :
    (s.hardwareReset .decoder).dec = DecState.reset s.dec.cfg := rfl
@[simp] theorem hardwareReset_decoder_enc (s : State) :
    (s.hardwareReset .decoder).enc = s.enc := rfl
@[simp] theorem hardwareReset_inputs (b : Block) (s : State) : (s.hardwareReset b).inputs = s.inputs := by
  cases b <;> rfl
@[simp] theorem encReset_cfg (c : EncConfig) :
    (EncState.reset c).cfg = c := rfl
@[simp] theorem encReset_last (c : EncConfig) :
    (EncState.reset c).last = List.replicate c.n 0 := rfl
@[simp] theorem encReset_first (c : EncConfig) :
    (EncState.reset c).first = true := rfl
@[simp] theorem encReset_run (c : EncConfig) :
    (EncState.reset c).run = 0 := rfl
@[simp] theorem encReset_rows (c : EncConfig) :
    (EncState.reset c).rows = 0 := rfl
@[simp] theorem encReset_buf (c : EncConfig) :
    (EncState.reset c).buf = [] := rfl
@[simp] theorem encReset_bufLen (c : EncConfig) :
    (EncState.reset c).bufLen = 0 := rfl
@[simp] theorem encReset_rsp (c : EncConfig) :
    (EncState.reset c).rsp = none := rfl
@[simp] theorem decReset_cfg (c : DecConfig) :
    (DecState.reset c).cfg = c := rfl
@[simp] theorem decReset_last (c : DecConfig) :
    (DecState.reset c).last = List.replicate c.n 0 := rfl
@[simp] theorem decReset_valid (c : DecConfig) :
    (DecState.reset c).valid = List.replicate c.n false := rfl
@[simp] theorem decReset_cur (c : DecConfig) :
    (DecState.reset c).cur = 0 := rfl
@[simp] theorem decReset_rowAcc (c : DecConfig) :
    (DecState.reset c).rowAcc = List.replicate c.n 0 := rfl
@[simp] theorem decReset_fault (c : DecConfig) :
    (DecState.reset c).fault = 0 := rfl
@[simp] theorem decReset_comp (c : DecConfig) :
    (DecState.reset c).comp = 0 := rfl
@[simp] theorem decReset_uncomp (c : DecConfig) :
    (DecState.reset c).uncomp = 0 := rfl
@[simp] theorem decReset_active (c : DecConfig) :
    (DecState.reset c).active = none := rfl
@[simp] theorem decReset_rsp (c : DecConfig) :
    (DecState.reset c).rsp = none := rfl
/-! ## The commit of a form -/

@[simp] theorem commit_cfg (v : Value) (len : Nat) (a : Decoding) (s : State) :
    (s.commit v len a).dec.cfg = s.dec.cfg := rfl
@[simp] theorem commit_last (v : Value) (len : Nat) (a : Decoding) (s : State) :
    (s.commit v len a).dec.last = s.dec.last.set s.dec.cur v := rfl
@[simp] theorem commit_valid (v : Value) (len : Nat) (a : Decoding) (s : State) :
    (s.commit v len a).dec.valid = s.dec.valid.set s.dec.cur true := rfl
@[simp] theorem commit_cur (v : Value) (len : Nat) (a : Decoding) (s : State) :
    (s.commit v len a).dec.cur = nextColumn s.dec.cfg.n s.dec.cur := rfl
@[simp] theorem commit_rowAcc (v : Value) (len : Nat) (a : Decoding) (s : State) :
    (s.commit v len a).dec.rowAcc = s.dec.accumulate v := rfl
@[simp] theorem commit_fault (v : Value) (len : Nat) (a : Decoding) (s : State) :
    (s.commit v len a).dec.fault = s.dec.fault := rfl
@[simp] theorem commit_comp (v : Value) (len : Nat) (a : Decoding) (s : State) :
    (s.commit v len a).dec.comp = s.dec.comp := rfl
@[simp] theorem commit_uncomp (v : Value) (len : Nat) (a : Decoding) (s : State) :
    (s.commit v len a).dec.uncomp = s.dec.uncomp := rfl
@[simp] theorem commit_active (v : Value) (len : Nat) (a : Decoding) (s : State) :
    (s.commit v len a).dec.active = some (a.advance len (nextColumn s.dec.cfg.n s.dec.cur) (s.dec.accumulate v)) := rfl
@[simp] theorem commit_rsp (v : Value) (len : Nat) (a : Decoding) (s : State) :
    (s.commit v len a).dec.rsp = s.dec.rsp := rfl
@[simp] theorem commit_enc (v : Value) (len : Nat) (a : Decoding) (s : State) :
    (s.commit v len a).enc = s.enc := rfl
@[simp] theorem commit_inputs (v : Value) (len : Nat) (a : Decoding) (s : State) :
    (s.commit v len a).inputs = s.inputs := rfl
@[simp] theorem advance_chunk (a : Decoding) (len cur : Nat) (acc : Row) :
    (a.advance len cur acc).chunk = a.chunk := rfl
@[simp] theorem advance_len (a : Decoding) (len cur : Nat) (acc : Row) :
    (a.advance len cur acc).len = a.len := rfl
@[simp] theorem advance_pos (a : Decoding) (len cur : Nat) (acc : Row) :
    (a.advance len cur acc).pos = a.pos + len := rfl
@[simp] theorem advance_rows (a : Decoding) (len cur : Nat) (acc : Row) :
    (a.advance len cur acc).rows = if cur = 0 then a.rows ++ [acc] else a.rows := rfl
/-! ## The start and the end of a `DECOMPRESS` -/

@[simp] theorem begin_cfg (chunk : List Byte) (s : State) :
    (s.beginDecompress chunk).dec.cfg = s.dec.cfg := rfl
@[simp] theorem begin_last (chunk : List Byte) (s : State) :
    (s.beginDecompress chunk).dec.last = s.dec.last := rfl
@[simp] theorem begin_valid (chunk : List Byte) (s : State) :
    (s.beginDecompress chunk).dec.valid = s.dec.valid := rfl
@[simp] theorem begin_cur (chunk : List Byte) (s : State) :
    (s.beginDecompress chunk).dec.cur = s.dec.cur := rfl
@[simp] theorem begin_rowAcc (chunk : List Byte) (s : State) :
    (s.beginDecompress chunk).dec.rowAcc = s.dec.rowAcc := rfl
@[simp] theorem begin_fault (chunk : List Byte) (s : State) :
    (s.beginDecompress chunk).dec.fault = s.dec.fault := rfl
@[simp] theorem begin_comp (chunk : List Byte) (s : State) :
    (s.beginDecompress chunk).dec.comp = s.dec.comp := rfl
@[simp] theorem begin_uncomp (chunk : List Byte) (s : State) :
    (s.beginDecompress chunk).dec.uncomp = s.dec.uncomp := rfl
@[simp] theorem begin_active (chunk : List Byte) (s : State) :
    (s.beginDecompress chunk).dec.active = some { chunk := Memory.ofBytes chunk, len := chunk.length, pos := 0, rows := [] } := rfl
@[simp] theorem begin_rsp (chunk : List Byte) (s : State) :
    (s.beginDecompress chunk).dec.rsp = none := rfl
@[simp] theorem begin_enc (chunk : List Byte) (s : State) :
    (s.beginDecompress chunk).enc = s.enc := rfl
@[simp] theorem begin_inputs (chunk : List Byte) (s : State) :
    (s.beginDecompress chunk).inputs = s.inputs := rfl
@[simp] theorem finish_cfg (a : Decoding) (s : State) :
    (s.finishDecompress a).dec.cfg = s.dec.cfg := rfl
@[simp] theorem finish_last (a : Decoding) (s : State) :
    (s.finishDecompress a).dec.last = s.dec.last := rfl
@[simp] theorem finish_valid (a : Decoding) (s : State) :
    (s.finishDecompress a).dec.valid = s.dec.valid := rfl
@[simp] theorem finish_cur (a : Decoding) (s : State) :
    (s.finishDecompress a).dec.cur = s.dec.cur := rfl
@[simp] theorem finish_rowAcc (a : Decoding) (s : State) :
    (s.finishDecompress a).dec.rowAcc = s.dec.rowAcc := rfl
@[simp] theorem finish_fault (a : Decoding) (s : State) :
    (s.finishDecompress a).dec.fault = s.dec.fault := rfl
@[simp] theorem finish_comp (a : Decoding) (s : State) :
    (s.finishDecompress a).dec.comp = a.len := rfl
@[simp] theorem finish_uncomp (a : Decoding) (s : State) :
    (s.finishDecompress a).dec.uncomp = a.rows.length * s.dec.cfg.n * 4 := rfl
@[simp] theorem finish_active (a : Decoding) (s : State) :
    (s.finishDecompress a).dec.active = none := rfl
@[simp] theorem finish_rsp (a : Decoding) (s : State) :
    (s.finishDecompress a).dec.rsp = some { status := .ok, info := .nothing, rows := a.rows } := rfl
@[simp] theorem finish_enc (a : Decoding) (s : State) :
    (s.finishDecompress a).enc = s.enc := rfl
@[simp] theorem finish_inputs (a : Decoding) (s : State) :
    (s.finishDecompress a).inputs = s.inputs := rfl
/-! ## A row that is accepted -/

@[simp] theorem acceptRow_cfg (row : List Word) (forms : List (List Byte)) (e : EncState) :
    (e.acceptRow row forms).cfg = e.cfg := rfl
@[simp] theorem acceptRow_last (row : List Word) (forms : List (List Byte)) (e : EncState) :
    (e.acceptRow row forms).last = row.map (fun w => w.setWidth 31) := rfl
@[simp] theorem acceptRow_first (row : List Word) (forms : List (List Byte)) (e : EncState) :
    (e.acceptRow row forms).first = false := rfl
@[simp] theorem acceptRow_run (row : List Word) (forms : List (List Byte)) (e : EncState) :
    (e.acceptRow row forms).run = nextRun e := rfl
@[simp] theorem acceptRow_rows (row : List Word) (forms : List (List Byte)) (e : EncState) :
    (e.acceptRow row forms).rows = e.rows + 1 := rfl
@[simp] theorem acceptRow_buf (row : List Word) (forms : List (List Byte)) (e : EncState) :
    (e.acceptRow row forms).buf = (appendForms e.buf e.bufLen forms).1 := rfl
@[simp] theorem acceptRow_bufLen (row : List Word) (forms : List (List Byte)) (e : EncState) :
    (e.acceptRow row forms).bufLen = (appendForms e.buf e.bufLen forms).2 := rfl
@[simp] theorem acceptRow_rsp (row : List Word) (forms : List (List Byte)) (e : EncState) :
    (e.acceptRow row forms).rsp = e.rsp := rfl

end Sys2Proof.Machine
end

