-- ==== Sys2Proof/Laws/Ops.lean ====
section
/-! SUPPORT. What each shared operation can do, said once. -/

namespace Sys2Proof.Machine

/-! ## Faults -/

/-- A fault of the encoder only answers (R117). -/
theorem takeFault_encoder (f : FaultReport) (s : State) :
    s.takeFault .encoder f = s.respond .encoder f.status f.info [] :=
  rfl

/-- A fault of the decoder that is not sticky only answers (R117). -/
theorem takeFault_decoder_plain (f : FaultReport) (s : State) (h : sticky f.status = false) :
    s.takeFault .decoder f = s.respond .decoder f.status f.info [] := by
  simp [State.takeFault, h]

/-- A sticky fault of the decoder inside a `DECOMPRESS` (R117). -/
theorem takeFault_decoder_sticky (f : FaultReport) (s : State) (a : Decoding) (h : sticky f.status = true)
    (ha : s.dec.active = some a) :
    s.takeFault .decoder f =
      { s with
        dec := { s.dec with
          fault := statusCode f.status
          active := none
          rsp := some { status := f.status, info := f.info, rows := a.rows } } } := by
  simp [State.takeFault, h, State.respond, DecState.latch, DecState.rowsSoFar, ha]

/-- A truncation (R74, R85, R107). -/
theorem truncated_eq (s : State) (a : Decoding) (ha : s.dec.active = some a) :
    s.truncated a =
      { s with
        dec := { s.dec with
          fault := 1
          active := none
          rsp := some { status := .truncatedStream, info := .position a.pos s.dec.cur, rows := a.rows } } } :=
  takeFault_decoder_sticky _ s a rfl ha

/-- The end of the chunk is a truncation or the end of the operation (R85). -/
theorem endOfChunk_cases (s : State) (a : Decoding) :
    (s.dec.cur = 0 ∧ s.endOfChunk a = s.finishDecompress a) ∨ (s.dec.cur ≠ 0 ∧ s.endOfChunk a = s.truncated a) := by
  by_cases h : s.dec.cur = 0
  · exact .inl ⟨h, by simp [State.endOfChunk, h]⟩
  · exact .inr ⟨h, by simp [State.endOfChunk, h]⟩

/-! ## Forms -/

/-- What `ApplyDelta` answers (R83): the sum in range, or one of its two faults. -/
theorem applyDelta_cases (sg : Bool) (mag : Nat) (d : DecState) :
    (hasReference d d.cur = false ∧
      applyDelta sg mag d = .error { status := .noReference, info := .column d.cur }) ∨
    (hasReference d d.cur = true ∧
      (deltaSum sg mag (lastValue d d.cur).toNat < 0 ∨ 2 ^ 31 ≤ deltaSum sg mag (lastValue d d.cur).toNat) ∧
      applyDelta sg mag d =
        .error { status := .decodedOutOfRange, info := .outOfRange d.cur (deltaSum sg mag (lastValue d d.cur).toNat) }) ∨
    (hasReference d d.cur = true ∧
      0 ≤ deltaSum sg mag (lastValue d d.cur).toNat ∧ deltaSum sg mag (lastValue d d.cur).toNat < 2 ^ 31 ∧
      applyDelta sg mag d = .ok (BitVec.ofInt 31 (deltaSum sg mag (lastValue d d.cur).toNat))) := by
  cases h : hasReference d d.cur with
  | false => exact .inl ⟨rfl, by simp [applyDelta, h]⟩
  | true =>
    by_cases ht : deltaSum sg mag (lastValue d d.cur).toNat < 0 ∨ 2 ^ 31 ≤ deltaSum sg mag (lastValue d d.cur).toNat
    · exact .inr (.inl ⟨rfl, ht, by simp only [applyDelta, h, if_true, if_pos ht]⟩)
    · refine .inr (.inr ⟨rfl, by omega, by omega, ?_⟩)
      simp only [applyDelta, h, if_true, if_neg ht]

/-- What a form can do (R73 step 2): commit, raise the fault it computed, or nothing when no `DECOMPRESS` runs. -/
theorem executeForm_cases (len : Nat) (value : Except FaultReport Value) (s : State) :
    (s.dec.active = none ∧ executeForm len value s = .refused .noDecompressRunning) ∨
    (∃ a v, s.dec.active = some a ∧ value = .ok v ∧ executeForm len value s = .next (s.commit v len a)) ∨
    (∃ a f, s.dec.active = some a ∧ value = .error f ∧
      executeForm len value s = .next (s.takeFault .decoder f)) := by
  cases ha : s.dec.active with
  | none => exact .inl ⟨rfl, by simp [executeForm, ha]⟩
  | some a =>
    cases value with
    | ok v => exact .inr (.inl ⟨a, v, rfl, rfl, by simp [executeForm, ha]⟩)
    | error f => exact .inr (.inr ⟨a, f, rfl, rfl, by simp [executeForm, ha]⟩)

/-- The faults of `ApplyDelta` are sticky (R106). -/
theorem applyDelta_sticky (sg : Bool) (mag : Nat) (d : DecState) (f : FaultReport)
    (h : applyDelta sg mag d = .error f) : sticky f.status = true := by
  obtain ⟨_, h'⟩ | ⟨_, _, h'⟩ | ⟨_, _, _, h'⟩ := applyDelta_cases sg mag d <;> cases h'.symm.trans h <;> rfl

/-- Every wire form is one `executeForm` of its own length, and its faults are sticky (R76 to R82). -/
theorem exec_form (i : Instr) (f : Form) (s : State) (h : formOf i = some f) :
    ∃ value, exec i s = executeForm (formLength f) value s ∧ ∀ e, value = .error e → sticky e.status = true := by
  cases i <;> cases h
  case raw v => exact ⟨.ok v, rfl, by intro e he; cases he⟩
  all_goals exact ⟨_, rfl, fun e => applyDelta_sticky _ _ _ e⟩

/-! ## Rows -/

/-- The buffer and its length after forms are appended (R59 step 5): those of one string of writes. -/
theorem appendForms_eq (forms : List (List Byte)) (buf : Memory) (len : Nat) :
    appendForms buf len forms = (buf.writeBytes len forms.flatten, len + forms.flatten.length) := by
  induction forms generalizing buf len with
  | nil => rfl
  | cons f fs ih =>
    have split (g : List Byte) : ∀ (f : List Byte) (m : Memory) (a : Nat),
        Memory.writeBytes (Memory.writeBytes m a f) (a + f.length) g = Memory.writeBytes m a (f ++ g) := by
      intro f
      induction f with
      | nil => intro m a; rfl
      | cons b f ih =>
        intro m a
        have := ih (Memory.write m a b) (a + 1)
        rwa [Nat.add_assoc, Nat.add_comm 1] at this
    rw [appendForms, ih, List.flatten_cons, split, List.length_append, Nat.add_assoc]

/-- What `WRITE_ROW` can do (R59). -/
theorem execWriteRow_cases (row : List Word) (s : State) :
    (∃ c, firstOutOfRange row = some c ∧
      execWriteRow row s = .next (s.respond .encoder .valueOutOfRange (.column c) [])) ∨
    (firstOutOfRange row = none ∧
      overflows s.enc.cfg.bufCap (s.enc.bufLen + formsLength (rowForms s.enc row)) = true ∧
      execWriteRow row s = .next (s.respond .encoder .bufferOverflow .nothing [])) ∨
    (firstOutOfRange row = none ∧
      overflows s.enc.cfg.bufCap (s.enc.bufLen + formsLength (rowForms s.enc row)) = false ∧
      execWriteRow row s = .next (State.respond .encoder .ok .nothing []
        { s with enc := s.enc.acceptRow row (rowForms s.enc row) })) := by
  cases h : firstOutOfRange row with
  | some c => exact .inl ⟨c, rfl, by simp [execWriteRow, h, State.takeFault]⟩
  | none =>
    cases ho : overflows s.enc.cfg.bufCap (s.enc.bufLen + formsLength (rowForms s.enc row)) with
    | true => exact .inr (.inl ⟨rfl, rfl, by simp [execWriteRow, h, ho, State.takeFault]⟩)
    | false => exact .inr (.inr ⟨rfl, rfl, by simp [execWriteRow, h, ho]⟩)

/-! ## Fetch and step -/

/-- What a turn of the decoder's loop can be (R73): the end of the chunk, a form to run, a truncation, or a missing
byte. -/
theorem fetchForm_cases (s : State) (a : Decoding) :
    (a.len ≤ a.pos ∧ fetchForm a s = .event (s.endOfChunk a)) ∨
    (a.pos < a.len ∧ ∃ bs i, a.chunk.readBytes a.pos (windowLength a) = some bs ∧
      decodeForm s.dec.cfg.variant bs = .ok i ∧ fetchForm a s = .instr i s) ∨
    (a.pos < a.len ∧ ∃ bs e, a.chunk.readBytes a.pos (windowLength a) = some bs ∧
      decodeForm s.dec.cfg.variant bs = .error e ∧ fetchForm a s = .event (s.truncated a)) ∨
    (a.pos < a.len ∧ a.chunk.readBytes a.pos (windowLength a) = none ∧
      fetchForm a s = .absent (a.chunk.firstAbsent a.pos (windowLength a))) := by
  by_cases h : a.len ≤ a.pos
  · exact .inl ⟨h, by simp [fetchForm, h]⟩
  · have h' : a.pos < a.len := by omega
    cases hb : a.chunk.readBytes a.pos (windowLength a) with
    | none => exact .inr (.inr (.inr ⟨h', rfl, by simp [fetchForm, h, hb]⟩))
    | some bs =>
      cases hd : decodeForm s.dec.cfg.variant bs with
      | ok i => exact .inr (.inl ⟨h', bs, i, rfl, hd, by simp [fetchForm, h, hb, hd]⟩)
      | error e => exact .inr (.inr (.inl ⟨h', bs, e, rfl, hd, by simp [fetchForm, h, hb, hd]⟩))

/-- What a step does, by what `fetch` finds. -/
theorem step_of_fetch (s : State) :
    (∃ i t, fetch s = .instr i t ∧ step s = exec i t) ∨ (∃ t, fetch s = .event t ∧ step s = .next t) ∨
    (∃ a, fetch s = .absent a ∧ step s = .fault (.absentByte a)) := by
  cases h : fetch s with
  | instr i t => exact .inl ⟨i, t, rfl, by simp [step, h]⟩
  | event t => exact .inr (.inl ⟨t, rfl, by simp [step, h]⟩)
  | absent a => exact .inr (.inr ⟨a, rfl, by simp [step, h]⟩)

end Sys2Proof.Machine
end

