-- ==== Sys2Proof/Laws/PerInstr.lean ====
section
/-! SUPPORT. Statements about every instruction as syntax, one lemma per constructor. -/

namespace Sys2Proof.Laws

/-- The encoding of an instruction is self-delimiting (R53): if it is a form of the stream, its lead byte announces, in
every variant the form belongs to, exactly as many bytes as there are. -/
def Delimited.Statement (i : Instr) : Prop :=
  ∀ (v : Variant) (n : Nat) (bs : List Byte), WellFormed v n i = true → encode i = .form bs →
    ∃ b rest, bs = b :: rest ∧ bs.length = formLength (classify v b)

/-- A command is no form of the stream. -/
theorem delimited_of_command (i : Instr) (c : Command) (h : encode i = .command c) : Delimited.Statement i := by
  intro v n bs _ hb
  rw [h] at hb
  cases hb

/-- A form whose lead byte classifies as itself, in each variant it belongs to, is self-delimiting. -/
theorem delimited_of_lead (i : Instr) (f : Form) (b : Byte) (rest : List Byte) (h : encode i = .form (b :: rest))
    (hl : rest.length + 1 = formLength f) (hc : ∀ v n, WellFormed v n i = true → classify v b = f) :
    Delimited.Statement i := by
  intro v n bs hw hb
  rw [h] at hb
  cases hb
  exact ⟨b, rest, rfl, by rw [hc v n hw, List.length_cons, hl]⟩

theorem Delimited.raw (v : Value) : Delimited.Statement (.raw v) := by
  refine delimited_of_lead _ .raw _ _ rfl rfl ?_
  intro v n hw
  simp [classify]

theorem Delimited.v1d3 (s : Bool) (m : BitVec 22) : Delimited.Statement (.v1d3 s m) := by
  refine delimited_of_lead _ .v1d3 _ _ rfl rfl ?_
  intro v n hw
  cases v <;> simp [WellFormed, classify, marked] at hw ⊢

theorem Delimited.v2d2 (s : Bool) (m : BitVec 13) : Delimited.Statement (.v2d2 s m) := by
  refine delimited_of_lead _ .v2d2 _ _ rfl rfl ?_
  intro v n hw
  cases v <;> simp [WellFormed, classify, marked] at hw ⊢

theorem Delimited.v2d3 (s : Bool) (m : BitVec 21) : Delimited.Statement (.v2d3 s m) := by
  refine delimited_of_lead _ .v2d3 _ _ rfl rfl ?_
  intro v n hw
  cases v <;> simp [WellFormed, classify, marked] at hw ⊢

theorem Delimited.v3d1 (s : Bool) (m : BitVec 5) : Delimited.Statement (.v3d1 s m) := by
  refine delimited_of_lead _ .v3d1 _ _ rfl rfl ?_
  intro v n hw
  cases v <;> simp [WellFormed, classify, marked] at hw ⊢

theorem Delimited.v3d2 (s : Bool) (m : BitVec 12) : Delimited.Statement (.v3d2 s m) := by
  refine delimited_of_lead _ .v3d2 _ _ rfl rfl ?_
  intro v n hw
  cases v <;> simp [WellFormed, classify, marked] at hw ⊢

theorem Delimited.v3d3 (s : Bool) (m : BitVec 20) : Delimited.Statement (.v3d3 s m) := by
  refine delimited_of_lead _ .v3d3 _ _ rfl rfl ?_
  intro v n hw
  cases v <;> simp [WellFormed, classify, marked] at hw ⊢

theorem Delimited.writeRow (row : List Word) : Delimited.Statement (.writeRow row) :=
  delimited_of_command _ _ rfl

theorem Delimited.eReset : Delimited.Statement .eReset :=
  delimited_of_command _ _ rfl

theorem Delimited.getData : Delimited.Statement .getData :=
  delimited_of_command _ _ rfl

theorem Delimited.getUsize : Delimited.Statement .getUsize :=
  delimited_of_command _ _ rfl

theorem Delimited.getCsize : Delimited.Statement .getCsize :=
  delimited_of_command _ _ rfl

theorem Delimited.getRatio : Delimited.Statement .getRatio :=
  delimited_of_command _ _ rfl

theorem Delimited.decompress (chunk : List Byte) : Delimited.Statement (.decompress chunk) :=
  delimited_of_command _ _ rfl

theorem Delimited.dGetUsize : Delimited.Statement .dGetUsize :=
  delimited_of_command _ _ rfl

theorem Delimited.dGetCsize : Delimited.Statement .dGetCsize :=
  delimited_of_command _ _ rfl

theorem Delimited.dGetRatio : Delimited.Statement .dGetRatio :=
  delimited_of_command _ _ rfl

theorem Delimited.dGetStatus : Delimited.Statement .dGetStatus :=
  delimited_of_command _ _ rfl

end Sys2Proof.Laws
end

