-- ==== Sys2Proof/Tests/Slice0.lean ====
section
/-! SUPPORT. Tests: the checks of WellFormed, words written out from the spec's layouts, the vectors of
spec/95_test_vectors.md one step at a time, and a witness for the hypotheses of each statement. -/

namespace Sys2Proof.Tests

open Sys2Proof.Machine

/-- The state an outcome carries, to compare with `decide`. -/
def nextOf : Host.Outcome State Fault Refusal → Option State
  | .next s => some s
  | .fault _ => none
  | .refused _ => none

/-- A statement of one field of the next state. -/
def onNext {α : Type} (f : State → α) (o : Host.Outcome State Fault Refusal) : Option α :=
  (nextOf o).map f

/-! ## WellFormed refuses -/

theorem test_wellFormed_v1d3_needs_variant_1 :
    WellFormed .v2 1 (.v1d3 true 0) = false ∧ WellFormed .v3 1 (.v1d3 true 0) = false := by decide
theorem test_wellFormed_v2d2_needs_variant_2 :
    WellFormed .v1 1 (.v2d2 true 0) = false ∧ WellFormed .v3 1 (.v2d2 true 0) = false := by decide
theorem test_wellFormed_v2d3_needs_variant_2 :
    WellFormed .v1 1 (.v2d3 true 0) = false ∧ WellFormed .v3 1 (.v2d3 true 0) = false := by decide
theorem test_wellFormed_v3d1_needs_variant_3 :
    WellFormed .v1 1 (.v3d1 true 0) = false ∧ WellFormed .v2 1 (.v3d1 true 0) = false := by decide
theorem test_wellFormed_v3d2_needs_variant_3 :
    WellFormed .v1 1 (.v3d2 true 0) = false ∧ WellFormed .v2 1 (.v3d2 true 0) = false := by decide
theorem test_wellFormed_v3d3_needs_variant_3 :
    WellFormed .v1 1 (.v3d3 true 0) = false ∧ WellFormed .v2 1 (.v3d3 true 0) = false := by decide
theorem test_wellFormed_row_needs_n_values :
    WellFormed .v3 2 (.writeRow [1]) = false ∧ WellFormed .v3 2 (.writeRow [1, 2, 3]) = false ∧
      WellFormed .v3 2 (.writeRow [1, 2]) = true := by decide

/-! ## Words written out from the layouts of R45 to R51 and the codes of R89 -/

theorem test_decode_raw :
    decode .v1 1 (.form [0b01000000, 0b00000010, 0b00000000, 0b10000001]) = .ok (.raw 0x40020081) := by rfl
theorem test_decode_v1d3 :
    decode .v1 1 (.form [0b11100000, 0b01000000, 0b00000011]) = .ok (.v1d3 true 0x204003) := by rfl
theorem test_decode_v2d2 : decode .v2 1 (.form [0b10010000, 0b00000101]) = .ok (.v2d2 false 0x1005) := by rfl
theorem test_decode_v2d3 :
    decode .v2 1 (.form [0b11110000, 0b00000001, 0b10000000]) = .ok (.v2d3 true 0x100180) := by rfl
theorem test_decode_v3d1 : decode .v3 1 (.form [0b10010110]) = .ok (.v3d1 false 0b10110) := by rfl
theorem test_decode_v3d2 : decode .v3 1 (.form [0b11101001, 0b00010000]) = .ok (.v3d2 true 0x910) := by rfl
theorem test_decode_v3d3 :
    decode .v3 1 (.form [0b10111000, 0b00010000, 0b00100000]) = .ok (.v3d3 false 0x81020) := by rfl
/-- `row[0]` in bits 31 .. 0, `row[1]` in bits 63 .. 32 (R100). -/
theorem test_decode_writeRow :
    decode .v3 2 (.command { block := .encoder, op := 0b000, row := 0x0000000700000064, chunk := [] }) =
      .ok (.writeRow [100, 7]) := by rfl
theorem test_decode_eReset :
    decode .v3 1 (.command { block := .encoder, op := 0b001, row := 0, chunk := [] }) = .ok .eReset := by rfl
theorem test_decode_getData :
    decode .v3 1 (.command { block := .encoder, op := 0b010, row := 0, chunk := [] }) = .ok .getData := by rfl
theorem test_decode_getUsize :
    decode .v3 1 (.command { block := .encoder, op := 0b011, row := 0, chunk := [] }) = .ok .getUsize := by rfl
theorem test_decode_getCsize :
    decode .v3 1 (.command { block := .encoder, op := 0b100, row := 0, chunk := [] }) = .ok .getCsize := by rfl
theorem test_decode_getRatio :
    decode .v3 1 (.command { block := .encoder, op := 0b101, row := 0, chunk := [] }) = .ok .getRatio := by rfl
theorem test_decode_decompress :
    decode .v3 1 (.command { block := .decoder, op := 0b000, row := 0, chunk := [0xC5] }) =
      .ok (.decompress [0xC5]) := by rfl
theorem test_decode_dGetUsize :
    decode .v3 1 (.command { block := .decoder, op := 0b011, row := 0, chunk := [] }) = .ok .dGetUsize := by rfl
theorem test_decode_dGetCsize :
    decode .v3 1 (.command { block := .decoder, op := 0b100, row := 0, chunk := [] }) = .ok .dGetCsize := by rfl
theorem test_decode_dGetRatio :
    decode .v3 1 (.command { block := .decoder, op := 0b101, row := 0, chunk := [] }) = .ok .dGetRatio := by rfl
theorem test_decode_dGetStatus :
    decode .v3 1 (.command { block := .decoder, op := 0b110, row := 0, chunk := [] }) = .ok .dGetStatus := by rfl
theorem test_decode_refuses_undefined_codes :
    decode .v3 1 (.command { block := .encoder, op := 0b110, row := 0, chunk := [] }) =
        .error (.undefinedCommand .encoder 0b110) ∧
      decode .v3 1 (.command { block := .decoder, op := 0b001, row := 0, chunk := [] }) =
        .error (.undefinedCommand .decoder 0b001) := ⟨rfl, rfl⟩
theorem test_decode_refuses_short_forms :
    decode .v2 1 (.form [0xE0, 0x20]) = .error (.truncated .v2d3) ∧ decode .v2 1 (.form []) = .error .noLeadByte :=
  ⟨rfl, rfl⟩

/-- The table words that spec/opcode_table.json's rows do not share, and how the shared ones are read (log 11). -/
theorem test_table_words :
    decodeTableWord 8 1 = some .eReset ∧ decodeTableWord 8 6 = some .dGetStatus ∧
      decodeTableWord 32 0 = some (.raw 0) ∧ decodeTableWord 8 0 = some (.writeRow [0]) ∧
      decodeTableWord 24 0x80 = some (.v1d3 false 0) ∧ decodeTableWord 16 0x80 = some (.v2d2 false 0) ∧
      decodeTableWord 8 0x80 = some (.v3d1 false 0) ∧ decodeTableWord 24 0xA0 = some (.v2d3 false 0) ∧
      decodeTableWord 8 0xA0 = some (.v3d2 false 0) ∧ decodeTableWord 8 0xB0 = some (.v3d3 false 0) := by decide

/-! ## Small states -/

/-- An encoder of variant 3 with one column and R = 1, after `WRITE_ROW([100])`. -/
def encOne : EncState :=
  { cfg := { variant := .v3, n := 1, r := 1, bufCap := some 9 }
    last := [100]
    first := false
    run := 0
    rows := 1
    buf := [(0, 0x00), (1, 0x00), (2, 0x00), (3, 0x64)]
    bufLen := 4
    rsp := none }

/-- The same encoder after `WRITE_ROW([105])`: a refresh is due, and 4 bytes are left. -/
def encDue : EncState :=
  { encOne with last := [105], run := 1, rows := 2, buf := encOne.buf ++ [(4, 0xC5)], bufLen := 5 }

/-- An encoder with two columns at reset. -/
def encFresh (v : Variant) (r : Nat) : EncState :=
  EncState.reset { variant := v, n := 2, r := r, bufCap := none }

/-- A decoder of variant `v` with two columns, column 1 in `SIGNED`. -/
def decCfg (v : Variant) : DecConfig :=
  { variant := v, n := 2, signed := [1], signOffset := 536870911 }

/-- A decoder of variant `v` in the middle of a chunk, at column `cur`, with one form behind it. -/
def decMid (v : Variant) (cur : Nat) (last : List Value) (rest : List Byte) : DecState :=
  { DecState.reset (decCfg v) with
    last := last
    valid := [true, false]
    cur := cur
    active := some
      { chunk := Memory.ofBytes ([0x00, 0x00, 0x00, 0x64] ++ rest), len := 4 + rest.length, pos := 4, rows := [] } }

/-- A decoder with a latched `NoReference`. -/
def decFaulted : DecState :=
  { DecState.reset (decCfg .v3) with fault := 6 }

/-- A decoder that has decoded a chunk of 9 bytes. -/
def decDone : DecState :=
  { DecState.reset (decCfg .v3) with comp := 9, uncomp := 16 }

/-- A state of these parts. -/
def sample (e : EncState) (d : DecState) (inputs : List Input) : State :=
  { enc := e, dec := d, inputs := inputs }

/-- The encoder state of tests about the decoder. -/
def withDec (d : DecState) : State :=
  sample (encFresh .v3 0) d []

/-- The decoder state of tests about the encoder. -/
def withEnc (e : EncState) : State :=
  sample e (DecState.reset (decCfg .v3)) []

/-- A command without operands. -/
def cmd (b : Block) (op : Code) : Input :=
  .command { block := b, op := op, row := 0, chunk := [] }

/-! ## The forms, one step each (95_test_vectors.md X1, P2, P3; R77 to R82) -/

theorem test_raw_commits : onNext (fun t => (t.dec.last, t.dec.valid, t.dec.cur, t.dec.rowAcc))
    (exec (.raw 0x1FFFFFFA) (withDec (decMid .v2 1 [1000, 0] []))) =
      some ([1000, 0x1FFFFFFA], [true, true], 0, [0, 0xFFFFFFFB]) := by decide
theorem test_v1d3_decrements : onNext (fun t => (t.dec.last, t.dec.cur, t.dec.rowAcc))
    (exec (.v1d3 false 1) (withDec (decMid .v1 0 [1, 0] []))) = some ([0, 0], 1, [0, 0]) := by decide
theorem test_v2d2_increments : onNext (fun t => t.dec.last)
    (exec (.v2d2 true 1) (withDec (decMid .v2 0 [0, 0] []))) = some [1, 0] := by decide
theorem test_v2d3_decrements : onNext (fun t => t.dec.last)
    (exec (.v2d3 false 8192) (withDec (decMid .v2 0 [8192, 0] []))) = some [0, 0] := by decide
theorem test_v3d1_increments : onNext (fun t => (t.dec.last, t.dec.rowAcc))
    (exec (.v3d1 true 5) (withDec (decMid .v3 0 [100, 0] []))) = some ([105, 0], [105, 0]) := by decide
theorem test_v3d1_upper_edge : onNext (fun t => t.dec.last)
    (exec (.v3d1 true 1) (withDec (decMid .v3 0 [2147483646, 0] []))) = some [2147483647, 0] := by decide
theorem test_v3d2_decrements : onNext (fun t => t.dec.last)
    (exec (.v3d2 false 32) (withDec (decMid .v3 0 [32, 0] []))) = some [0, 0] := by decide
theorem test_v3d3_increments : onNext (fun t => t.dec.last)
    (exec (.v3d3 true 49895) (withDec (decMid .v3 0 [105, 0] []))) = some [50000, 0] := by decide
theorem test_delta_without_reference :
    onNext (fun t => (t.dec.fault, t.dec.active, t.dec.rsp.map Response.info))
      (exec (.v3d1 true 5) (withDec (decMid .v3 1 [100, 0] []))) = some (6, none, some (.column 1)) := by decide
theorem test_delta_below_zero : onNext (fun t => (t.dec.fault, t.dec.last, t.dec.rsp.map Response.info))
    (exec (.v3d1 false 4) (withDec (decMid .v3 0 [3, 0] []))) =
      some (5, [3, 0], some (.outOfRange 0 (-1))) := by decide
theorem test_delta_above_top : onNext (fun t => (t.dec.fault, t.dec.rsp.map Response.info))
    (exec (.v3d1 true 1) (withDec (decMid .v3 0 [2147483647, 0] []))) =
      some (5, some (.outOfRange 0 2147483648)) := by decide
theorem test_step_runs_the_form : onNext (fun t => t.dec.last)
    (step (withDec (decMid .v3 0 [105, 0] [0xF0, 0xC2, 0xE7]))) = some [50000, 0] := by decide
theorem test_step_truncates_mid_value : onNext (fun t => (t.dec.fault, t.dec.last, t.dec.rsp.map Response.info))
    (step (withDec (decMid .v2 0 [1, 0] [0xE0, 0x20]))) = some (1, [1, 0], some (.position 4 0)) := by decide
theorem test_step_truncates_mid_row : onNext (fun t => (t.dec.fault, t.dec.cur, t.dec.rsp.map Response.info))
    (step (withDec (decMid .v3 1 [1, 0] []))) = some (1, 1, some (.position 4 1)) := by decide

/-! ## The encoder (95_test_vectors.md E1 to E4) -/

theorem test_encodeDelta_v1 : encodeDelta .v1 0 4194303 = [0xFF, 0xFF, 0xFF] ∧
    encodeDelta .v1 0 4194304 = [0x00, 0x40, 0x00, 0x00] ∧ encodeDelta .v1 1 0 = [0x80, 0x00, 0x01] := by decide
theorem test_encodeDelta_v2 : encodeDelta .v2 8191 0 = [0x9F, 0xFF] ∧ encodeDelta .v2 0 8192 = [0xE0, 0x20, 0x00] ∧
    encodeDelta .v2 2097151 0 = [0xBF, 0xFF, 0xFF] ∧ encodeDelta .v2 0 2097152 = [0x00, 0x20, 0x00, 0x00] := by decide
theorem test_encodeDelta_v3 : encodeDelta .v3 31 0 = [0x9F] ∧ encodeDelta .v3 0 32 = [0xE0, 0x20] ∧
    encodeDelta .v3 4096 0 = [0xB0, 0x10, 0x00] ∧ encodeDelta .v3 1048576 0 = [0x00, 0x00, 0x00, 0x00] := by decide
theorem test_writeRow_delta : nextOf (exec (.writeRow [105]) (withEnc encOne)) =
    some (withEnc { encDue with rsp := some { status := .ok, info := .nothing, rows := [] } }) := by decide
theorem test_writeRow_refresh : onNext (fun t => (t.enc.run, t.enc.bufLen, t.enc.buf.map Prod.snd))
    (exec (.writeRow [7]) (withEnc encDue)) =
      some (0, 9, [0x00, 0x00, 0x00, 0x64, 0xC5, 0x00, 0x00, 0x00, 0x07]) := by decide
theorem test_writeRow_rejects : onNext (fun t => t.enc.rsp) (exec (.writeRow [5, 0x80000000]) (withEnc (encFresh .v3 0))) =
    some (some { status := .valueOutOfRange, info := .column 1, rows := [] }) := by decide
theorem test_eReset : nextOf (exec .eReset (withEnc encDue)) =
    some (withEnc { EncState.reset encDue.cfg with
      rsp := some { status := .ok, info := .nothing, rows := [] } }) := by decide
theorem test_getData : onNext (fun t => t.enc.rsp.map Response.info) (exec .getData (withEnc encDue)) =
    some (some (.data [0x00, 0x00, 0x00, 0x64, 0xC5])) := by decide
theorem test_getUsize : onNext (fun t => t.enc.rsp.map Response.info) (exec .getUsize (withEnc encDue)) =
    some (some (.size 8)) := by decide
theorem test_getCsize : onNext (fun t => t.enc.rsp.map Response.info) (exec .getCsize (withEnc encDue)) =
    some (some (.size 5)) := by decide
theorem test_getRatio : onNext (fun t => t.enc.rsp.map Response.info) (exec .getRatio (withEnc encDue)) =
    some (some (.pair 8 5)) := by decide
theorem test_getRatio_undefined : onNext (fun t => t.enc.rsp.map Response.status)
    (exec .getRatio (withEnc (encFresh .v1 0))) = some (some .metricUndefined) := by decide

/-! ## The decoder's commands and the whole machine -/

theorem test_decompress_starts : onNext (fun t => t.dec.active) (exec (.decompress [0xC5]) (withDec decDone)) =
    some (some { chunk := [(0, 0xC5)], len := 1, pos := 0, rows := [] }) := by decide
theorem test_decompress_refused : onNext (fun t => (t.dec.active, t.dec.rsp))
    (exec (.decompress [0x00, 0x00, 0x00, 0x64]) (withDec decFaulted)) =
      some (none, some { status := .refused, info := .latched 6, rows := [] }) := by decide
theorem test_dGetUsize : onNext (fun t => t.dec.rsp.map Response.info) (exec .dGetUsize (withDec decDone)) =
    some (some (.size 16)) := by decide
theorem test_dGetCsize : onNext (fun t => t.dec.rsp.map Response.info) (exec .dGetCsize (withDec decDone)) =
    some (some (.size 9)) := by decide
theorem test_dGetRatio : onNext (fun t => t.dec.rsp.map Response.info) (exec .dGetRatio (withDec decDone)) =
    some (some (.pair 16 9)) := by decide
theorem test_dGetStatus : onNext (fun t => t.dec.rsp.map Response.info) (exec .dGetStatus (withDec decFaulted)) =
    some (some (.faultCode 6)) := by decide
theorem test_undefined_command_is_refused : onNext (fun t => (t.enc.rsp.map Response.status, t.inputs))
    (step (sample encOne decDone [cmd .encoder 7])) = some (some .refused, []) := by decide
theorem test_busy_decoder_makes_a_command_wait : onNext (fun t => (t.dec.last, t.inputs))
    (step (sample encOne (decMid .v3 0 [100, 0] [0xC5]) [cmd .decoder 6])) =
      some ([105, 0], [cmd .decoder 6]) := by decide
theorem test_reset_pin : onNext (fun t => (t.dec, t.enc)) (step (sample encOne decFaulted [.rst .decoder])) =
    some (DecState.reset (decCfg .v3), encOne) := by decide
theorem test_withFetchWord_runs_a_form : onNext (fun t => (t.dec.last, t.dec.cur, t.dec.valid))
    (step (State.reset.withFetchWord 32 0x64000000)) = some ([100], 0, [true]) := by decide
theorem test_withFetchWord_runs_a_command : onNext (fun t => t.enc.rsp.map Response.info)
    (step (State.reset.withFetchWord 8 4)) = some (some (.size 0)) := by decide
theorem test_build_refuses : buildEncoder 4 1 0 none = none ∧ buildEncoder 1 0 0 none = none ∧
    buildDecoder 3 1 [1] 0 = none ∧ (buildEncoder 3 1 0 none).isSome = true := by decide

/-! ## Witnesses: a state and operands that meet the hypotheses of each statement -/

theorem inv_encOne : encOne.Inv :=
  ⟨by decide, by decide, by decide, by decide, by decide, by decide, by decide, by decide, by decide⟩

theorem inv_encDue : encDue.Inv :=
  ⟨by decide, by decide, by decide, by decide, by decide, by decide, by decide, by decide, by decide⟩

theorem inv_encFresh (v : Variant) : (encFresh v 1).Inv := by
  cases v <;> exact ⟨by decide, by decide, by decide, by decide, by decide, by decide, by decide, by decide, by decide⟩

theorem inv_encFresh_unrefreshed : (encFresh .v1 0).Inv :=
  ⟨by decide, by decide, by decide, by decide, by decide, by decide, by decide, by decide, by decide⟩

/-- A decoder in the middle of `00 00 00 64 C5`, column 0 valid. -/
def decC5 : DecState :=
  decMid .v3 0 [100, 0] [0xC5]

theorem inv_decC5 : decC5.Inv :=
  ⟨by decide, by decide, by decide, by decide, by decide, by decide, by decide,
    fun _ _ => by decide, fun a h => by cases h; exact ⟨by decide, by decide, by decide⟩⟩

/-- A decoder of variant 2 with an incomplete form at the end of its chunk. -/
def decShort : DecState :=
  decMid .v2 0 [1, 0] [0xE0, 0x20]

theorem inv_decShort : decShort.Inv :=
  ⟨by decide, by decide, by decide, by decide, by decide, by decide, by decide,
    fun _ _ => by decide, fun a h => by cases h; exact ⟨by decide, by decide, by decide⟩⟩

theorem inv_decFaulted : decFaulted.Inv :=
  ⟨by decide, by decide, by decide, by decide, by decide, by decide, by decide,
    (fun _ h => nomatch h), (fun _ h => nomatch h)⟩

theorem inv_decDone : decDone.Inv :=
  ⟨by decide, by decide, by decide, by decide, by decide, by decide, by decide,
    (fun _ h => nomatch h), (fun _ h => nomatch h)⟩

/-- The operation in progress of `decC5`. -/
def runC5 : Decoding :=
  { chunk := Memory.ofBytes [0x00, 0x00, 0x00, 0x64, 0xC5], len := 5, pos := 4, rows := [] }

/-- StepRunsTheDecodedInstruction, the form. -/
theorem test_witness_step_form :
    decC5.active = some runC5 ∧ runC5.pos < runC5.len ∧
      runC5.chunk.readBytes runC5.pos (windowLength runC5) = some [0xC5] ∧
      decodeForm .v3 [0xC5] = .ok (.v3d1 true 5) ∧
      (sample encOne decC5 []).inputs = [] ∧ (sample encOne decC5 [.idle]).inputs = .idle :: [] ∧
      (sample encOne decC5 [cmd .decoder 6]).inputs = [cmd .decoder 6] :=
  ⟨by decide, by decide, by decide, rfl, rfl, rfl, rfl⟩
/-- StepRunsTheDecodedInstruction, a command at either block. -/
theorem test_witness_step_command :
    decodeCommand 1 { block := .encoder, op := 4, row := 0, chunk := [] } = .ok .getCsize ∧
      decodeCommand 1 { block := .decoder, op := 4, row := 0, chunk := [] } = .ok .dGetCsize ∧
      decDone.active = none := ⟨rfl, rfl, rfl⟩
/-- DecodeInvertsEncode, a form and a row. -/
theorem test_witness_wellFormed :
    WellFormed .v3 2 (.v3d1 false 31) = true ∧ WellFormed .v3 2 (.writeRow [1, 2]) = true := by decide
/-- DecodedFormReencodesToItsBytes: the form just there, and one byte short. -/
theorem test_witness_lengths :
    formLength (classify .v1 0x7F) ≤ [0xFF, 0xFF, 0xFF].length + 1 ∧
      [0xFF, 0xFF].length + 1 < formLength (classify .v1 0x7F) := by decide
/-- LeadByteRanges: every boundary of the table. -/
theorem test_witness_lead_bytes :
    [0x00, 0x7F, 0x80, 0x9F, 0xA0, 0xAF, 0xB0, 0xBF, 0xC0, 0xDF, 0xE0, 0xEF, 0xF0, 0xFF].map
        (fun b : Byte => (classify .v1 b, classify .v2 b, classify .v3 b, signOf b)) =
      [(.raw, .raw, .raw, false), (.raw, .raw, .raw, true), (.v1d3, .v2d2, .v3d1, false), (.v1d3, .v2d2, .v3d1, false),
        (.v1d3, .v2d3, .v3d2, false), (.v1d3, .v2d3, .v3d2, false), (.v1d3, .v2d3, .v3d3, false),
        (.v1d3, .v2d3, .v3d3, false), (.v1d3, .v2d2, .v3d1, true), (.v1d3, .v2d2, .v3d1, true),
        (.v1d3, .v2d3, .v3d2, true), (.v1d3, .v2d3, .v3d2, true), (.v1d3, .v2d3, .v3d3, true),
        (.v1d3, .v2d3, .v3d3, true)] := by decide
/-- UbeInvertsBe, at the top of the range; PayloadIsTheLowBitsOfTheBytes, the bytes `E0 21 2A` of P2. -/
theorem test_witness_payload : (256 ^ 3 - 1 < 256 ^ 3) ∧
    decodeForm .v2 [0xE0, 0x21, 0x2A] = .ok (.v2d3 true 8490) ∧
    [(0x21 : Byte), 0x2A].length + 1 = formLength (classify .v2 0xE0) ∧ ube [0xE0, 0x21, 0x2A] % 2 ^ 21 = 8490 :=
  ⟨by decide, rfl, by decide, by decide⟩
/-- EncodeDeltaFollowsTheThresholds: no change, an increase and a decrease at the top of the range. -/
theorem test_witness_thresholds :
    ((0 : Nat) ≤ 0 ∧ true = true ∧ (0 : Nat) = 0 - 0) ∧
      ((0 : Nat) ≤ 2147483647 ∧ true = true ∧ 2147483647 = 2147483647 - 0) ∧
      ((31 : Nat) < 32 ∧ false = false ∧ 1 = 32 - 31) := by decide
/-- EncodedLengthIsMonotone, across a step. -/
theorem test_witness_monotone : offset 0 31 ≤ offset 0 32 ∧ (encodeDelta .v3 0 31).length < (encodeDelta .v3 0 32).length := by
  decide
/-- SignChangesOnlyBitSix, at the capacity of each level. -/
theorem test_witness_levels : (3, 22) ∈ levels .v1 ∧ 4194303 ≤ cap 22 ∧ (2, 13) ∈ levels .v2 ∧ 8191 ≤ cap 13 ∧
    (1, 5) ∈ levels .v3 ∧ 31 ≤ cap 5 := by decide
/-- WriteRowAppendsItsForms: a delta row, and a forced row that just fits. -/
theorem test_witness_writeRow :
    (encOne.Inv ∧ RowOk 1 [105] ∧ ¬(encOne.first = true ∨ (0 < encOne.cfg.r ∧ encOne.run = encOne.cfg.r)) ∧
      encOne.bufLen + (List.zipWith (fun l w => encodeDelta .v3 (BitVec.toNat l) (BitVec.toNat w)) encOne.last
        ([105] : List Word)).flatten.length ≤ 9) ∧
    (encDue.Inv ∧ (encDue.first = true ∨ (0 < encDue.cfg.r ∧ encDue.run = encDue.cfg.r)) ∧
      encDue.bufLen + (([7] : List Word).map (fun w => emitRaw w.toNat)).flatten.length = 9) :=
  ⟨⟨inv_encOne, ⟨rfl, by simp⟩, by decide, by decide⟩, inv_encDue, by decide, by decide⟩
/-- WriteRowRejectsLowestBadColumn, with a second bad column above. -/
theorem test_witness_bad_column :
    ([5, 0x80000000, 0xFFFFFFFF] : List Word)[1]? = some 0x80000000 ∧ 2 ^ 31 ≤ (0x80000000 : Word).toNat ∧
      ∀ j u, j < 1 → ([5, 0x80000000, 0xFFFFFFFF] : List Word)[j]? = some u → u.toNat < 2 ^ 31 :=
  ⟨rfl, by decide, by
    intro j u hj h
    obtain rfl : j = 0 := by omega
    obtain rfl : (5 : Word) = u := by simpa using h
    decide⟩
/-- WriteRowOverflowChangesNothing: one byte too many, and an encoder without a bound. -/
theorem test_witness_overflow :
    (∀ w ∈ ([106] : List Word), w.toNat < 2 ^ 31) ∧
      4 < encOne.bufLen + (rowForms { encOne with cfg := { encOne.cfg with bufCap := some 4 } } [106]).flatten.length ∧
      (encFresh .v3 0).cfg.bufCap = none :=
  ⟨by simp, by decide, rfl⟩
/-- ForcedRowTakesFourBytesAColumn: a first row; WriteRowAppendsItsForms has a refresh. -/
theorem test_witness_forced : RowOk 2 [5, 0x7FFFFFFF] ∧ (encFresh .v3 0).cfg.bufCap = none ∧
    (encFresh .v3 0).first = true := ⟨⟨rfl, by simp⟩, rfl, rfl⟩
/-- RefreshPeriodIsRPlusOne, with and without a refresh interval. -/
theorem test_witness_refresh :
    (encFresh .v3 1).Inv ∧ (encFresh .v3 1).first = true ∧ (encFresh .v3 1).cfg.r = 1 ∧
      (∀ row ∈ [[5, 6], [6, 6], [7, 7]], RowOk 2 row) ∧ (encFresh .v1 0).Inv ∧ (encFresh .v1 0).cfg.r = 0 :=
  ⟨inv_encFresh .v3, by decide, by decide, by simp [RowOk], inv_encFresh_unrefreshed, by decide⟩
/-- RowLengthBounds, in variants 1 and 2. -/
theorem test_witness_row_bounds :
    (encFresh .v1 0).last.length = 2 ∧ (encFresh .v1 0).cfg.variant = .v1 ∧ (encFresh .v2 0).cfg.variant = .v2 ∧
      RowOk 2 [0, 0x7FFFFFFF] := ⟨rfl, rfl, rfl, rfl, by simp⟩
/-- GetDataReturnsTheBuffer; EncoderRatioAnswers, both cases. -/
theorem test_witness_encoder_reads : encOne.Inv ∧ encOne.bufLen ≠ 0 ∧ (encFresh .v3 0).bufLen = 0 :=
  ⟨inv_encOne, by decide, by decide⟩
/-- BufferIsAppendOnly: a row that leaves the bytes below it, and `E_RESET`, which shortens the buffer. -/
theorem test_witness_append_only : encOne.Inv ∧
    onNext (fun t => decide (3 < encOne.bufLen ∧ 3 < t.enc.bufLen))
      (step (sample encOne decDone [.command { block := .encoder, op := 0, row := 105, chunk := [] }])) = some true ∧
    onNext (fun t => decide (t.enc.bufLen < encOne.bufLen)) (step (sample encOne decDone [cmd .encoder 1])) = some true :=
  ⟨inv_encOne, by decide, by decide⟩
/-- DecompressTakesTheChunk and RefusedCommandsChangeNothing. -/
theorem test_witness_decompress : decDone.fault = 0 ∧ decFaulted.fault ≠ 0 ∧ decDone.active = none ∧
    (6 : Code) ∈ [6#3, 7#3] ∧ (7 : Code) ∈ [6#3, 7#3] ∧ (1 : Code) ∈ [1#3, 2#3, 7#3] ∧ (7 : Code) ∈ [1#3, 2#3, 7#3] := by
  decide
/-- RawFormCommitsItsValue; DeltaFormsCommitTheSum, an increase and a decrease to the bottom of the range. -/
theorem test_witness_commit : decC5.Inv ∧ decC5.active = some runC5 ∧ hasReference decC5 decC5.cur = true ∧
    ((105 : Value).toNat : Int) = (lastValue decC5 decC5.cur).toNat + (if true then ((5 : BitVec 5).toNat : Int) else -(5 : BitVec 5).toNat) ∧
    ((0 : Value).toNat : Int) =
      (lastValue decC5 decC5.cur).toNat + (if false then ((100 : BitVec 12).toNat : Int) else -(100 : BitVec 12).toNat) :=
  ⟨inv_decC5, by decide, by decide, by decide, by decide⟩
/-- DeltaWithoutReferenceFaults; DeltaOutOfRangeFaults, just below 0 and just above the top. -/
theorem test_witness_faults :
    (decMid .v3 1 [100, 0] []).active.isSome = true ∧ hasReference (decMid .v3 1 [100, 0] []) 1 = false ∧
      ((-1 : Int) = (lastValue (decMid .v3 0 [3, 0] []) 0).toNat + (if false then ((4 : BitVec 5).toNat : Int) else -(4 : BitVec 5).toNat)) ∧
      ((2147483648 : Int) = (lastValue (decMid .v3 0 [2147483647, 0] []) 0).toNat +
        (if true then ((1 : BitVec 5).toNat : Int) else -(1 : BitVec 5).toNat)) ∧
      hasReference (decMid .v3 0 [3, 0] []) 0 = true := by decide
/-- IncompleteFormTruncates: two bytes of a form of three. -/
theorem test_witness_incomplete : decShort.Inv ∧ decShort.active.isSome = true ∧
    ∀ a ∈ decShort.active, a.chunk.read a.pos = some 0xE0 ∧ a.len < a.pos + formLength (classify .v2 0xE0) :=
  ⟨inv_decShort, by decide, fun a h => by cases h; decide⟩
/-- EndOfChunkFinishesOrTruncates: inside a row and at its end. -/
theorem test_witness_end_of_chunk :
    (∀ a ∈ (decMid .v3 1 [1, 0] []).active, a.pos = a.len) ∧ (decMid .v3 1 [1, 0] []).active.isSome = true ∧
      (decMid .v3 1 [1, 0] []).cur ≠ 0 ∧ (decMid .v3 0 [1, 0] []).cur = 0 :=
  ⟨fun a h => by cases h; decide, by decide, by decide, by decide⟩
/-- DecoderRatioAnswers, both cases. -/
theorem test_witness_decoder_ratio : decDone.comp ≠ 0 ∧ decFaulted.comp = 0 := by decide
/-- OutputWordIsTheResignedValue, a column in `SIGNED` and one outside; SignedColumnShowsTheProducersValue, at both ends. -/
theorem test_witness_signed : (decCfg .v3).Valid ∧ 1 ∈ (decCfg .v3).signed ∧ 0 ∉ (decCfg .v3).signed ∧
    Signifiable 536870911 (-536870911) ∧ Signifiable 536870911 1610612736 := by decide
/-- StepKeepsTheInvariant, EveryStepFromTheInvariantCompletes, ConfigurationNeverChanges. -/
theorem test_witness_invariant : (sample encOne decC5 []).Inv ∧ (nextOf (step (sample encOne decC5 []))).isSome = true :=
  ⟨⟨inv_encOne, inv_decC5⟩, by decide⟩
/-- ResetHasTheInvariant. -/
theorem test_witness_valid : EncConfig.illustrative.Valid ∧ DecConfig.illustrative.Valid ∧ (decCfg .v1).Valid := by decide
/-- EncoderResetState and DecoderResetState: the reset pins and `E_RESET` lead somewhere. -/
theorem test_witness_resets :
    (nextOf (step (sample encOne decC5 [.rst .encoder]))).isSome = true ∧
      (nextOf (step (sample encOne decC5 [.rst .decoder]))).isSome = true ∧
      (nextOf (exec .eReset (sample encOne decC5 []))).isSome = true := by decide
/-- ResetPinResetsItsBlockOnly and MachineWaitsForCommands. -/
theorem test_witness_inputs : (sample encOne decC5 [.rst .encoder]).inputs = .rst .encoder :: [] ∧
    (sample encOne decC5 [.rst .decoder, .idle]).inputs = .rst .decoder :: [.idle] ∧
    (sample encOne decDone [.idle]).dec.active = none := by decide
/-- BlocksShareNothing: one instruction of each kind completes. -/
theorem test_witness_blocks : (nextOf (exec (.writeRow [105]) (sample encOne decC5 []))).isSome = true ∧
    (nextOf (exec .dGetStatus (sample encOne decC5 []))).isSome = true ∧
    (nextOf (exec (.v3d1 true 5) (sample encOne decC5 []))).isSome = true := by decide
/-- FaultAndReferencesStayUntilReset: a latched fault under a new `DECOMPRESS`, and a valid reference. -/
theorem test_witness_latched : decFaulted.Inv ∧ decFaulted.fault ≠ 0 ∧
    onNext (fun t => t.dec.fault) (step (sample encOne decFaulted [cmd .decoder 0])) = some 6 ∧
    decC5.Inv ∧ hasReference decC5 0 = true :=
  ⟨inv_decFaulted, by decide, by decide, inv_decC5, by decide⟩
/-- DecompressTerminates. -/
theorem test_witness_running : (sample encOne decC5 []).Inv ∧ (sample encOne decC5 []).dec.active = some runC5 :=
  ⟨⟨inv_encOne, inv_decC5⟩, by decide⟩
/-- DecompressStepsAreTheOperation: a faulted decoder (refused), and vectors P1 (OK) and X3 (NoReference). -/
theorem test_witness_operation : (sample encOne decFaulted []).Inv ∧ (sample encOne decFaulted []).dec.active = none ∧
    (decompressOperation [0xC5] decFaulted).rsp = some { status := .refused, info := .latched 6, rows := [] } ∧
    State.reset.dec.active = none ∧
    (decompressOperation [0, 0, 0, 0x64, 0xC5] State.reset.dec).rsp =
      some { status := .ok, info := .nothing, rows := [[100], [105]] } ∧
    (decompressOperation [0xC5] State.reset.dec).rsp =
      some { status := .noReference, info := .column 0, rows := [] } :=
  ⟨⟨inv_encOne, inv_decFaulted⟩, by decide, by decide, by decide, by decide, by decide⟩

/-- A pair with matching parameters, the encoder ahead of nothing: both hold 100, and column 0 is valid. -/
def synced : State :=
  { enc := encOne
    dec := { DecState.reset { variant := .v3, n := 1, signed := [], signOffset := 0 } with last := [100], valid := [true] }
    inputs := [] }

theorem inv_synced : synced.Inv :=
  ⟨inv_encOne, by decide, by decide, by decide, by decide, by decide, by decide, by decide,
    (fun _ h => nomatch h), (fun _ h => nomatch h)⟩

/-- WrittenRowsDecompressToThemselves: a pair in step past the first row, and room for the row; FreshPairIsSynced. -/
theorem test_witness_synced : synced.Inv ∧ Synced synced ∧ (∀ row ∈ ([[105]] : List (List Word)), RowOk 1 row) ∧
    encOne.bufLen + 4 * 1 * 1 ≤ 9 ∧ DecConfig.illustrative.variant = EncConfig.illustrative.variant :=
  ⟨inv_synced, ⟨by decide, by decide, by decide, by decide, by decide, by decide⟩, by simp [RowOk], by decide, by decide⟩
/-- ChunksMayBeCutAtRowBoundaries: two chunks of one row each. -/
theorem test_witness_chunks : synced.Inv ∧ synced.dec.active = none ∧ synced.dec.fault = 0 ∧
    ((nextOf (decompressAll [0xC5] synced)).bind (fun u => u.dec.rsp)) =
      some { status := .ok, info := .nothing, rows := [[105]] } ∧
    (((nextOf (decompressAll [0xC5] synced)).bind (fun u => nextOf (decompressAll [0xC1] u))).bind
      (fun v => v.dec.rsp)).isSome = true :=
  ⟨inv_synced, by decide, by decide, by decide, by decide⟩
/-- ResigningNeverReachesTheReferences: two machines that differ in `SIGN_OFFSET` and `D_ROWACC`, in a running
`DECOMPRESS`. -/
theorem test_witness_resigning :
    SameButResigning (sample encOne decC5 [])
      (sample encOne { decC5 with cfg := { decC5.cfg with signOffset := 7 }, rowAcc := [1, 2] } []) ∧
    (nextOf (step (sample encOne decC5 []))).isSome = true :=
  ⟨⟨rfl, rfl, rfl, rfl, rfl, rfl, rfl, rfl, rfl, rfl, .inr ⟨runC5, runC5, by decide, by decide, ⟨rfl, rfl, rfl, rfl⟩⟩⟩,
    by decide⟩
/-- OnlyValidParametersBuild: the edges of each domain. -/
theorem test_witness_parameters :
    (1 ≤ 3 ∧ 3 ≤ 3 ∧ 1 ≤ 1 ∧ 2 ^ 32 - 1 < 2 ^ 32) ∧ ¬(1 ≤ 3 ∧ 3 ≤ 3 ∧ 1 ≤ 1 ∧ 2 ^ 32 < 2 ^ 32) ∧
      ([0, 1] : List Nat).Pairwise (· < ·) ∧ (∀ i ∈ ([0, 1] : List Nat), i < 2) ∧ 2 ^ 31 - 1 < 2 ^ 31 := by decide

end Sys2Proof.Tests
end

/-! # Proofs: the scope of the model (spec/00_scope.md)

Byte strings and numbers (R11), the domain of the parameters (R7), and what a step of one block leaves alone (R3). -/

/-! ## `BE` and `UBE` (R11) -/

section
namespace Sys2Proof.Machine

@[simp] theorem length_be (v n : Nat) : (be v n).length = n := by
  induction n with
  | zero => rfl
  | succ n ih => rw [be, List.length_cons, ih]

/-- The `n` bytes of a number spell it modulo 256^n. -/
theorem ube_be (v n : Nat) : ube (be v n) = v % 256 ^ n := by
  induction n with
  | zero => rw [Nat.pow_zero, Nat.mod_one]; rfl
  | succ n ih =>
    calc ube (be v (n + 1)) = v / 256 ^ n % 256 * 256 ^ n + v % 256 ^ n := by
          rw [be, ube, length_be, ih, BitVec.toNat_ofNat]
      _ = v % 256 ^ (n + 1) := by rw [Nat.pow_succ, Nat.mod_mul]; ring

theorem ube_lt (bs : List Byte) : ube bs < 256 ^ bs.length := by
  induction bs with
  | nil => exact Nat.one_pos
  | cons b bs ih =>
    calc ube (b :: bs) < b.toNat * 256 ^ bs.length + 256 ^ bs.length := Nat.add_lt_add_left ih _
      _ = (b.toNat + 1) * 256 ^ bs.length := by ring
      _ ≤ 256 * 256 ^ bs.length := Nat.mul_le_mul_right _ b.isLt
      _ = 256 ^ (b :: bs).length := by rw [List.length_cons, Nat.pow_succ, Nat.mul_comm]

/-- The lead byte is the quotient by the weight of its place. -/
theorem ube_cons_div (b : Byte) (bs : List Byte) : ube (b :: bs) / 256 ^ bs.length = b.toNat := by
  rw [ube, Nat.mul_comm, Nat.mul_add_div (by positivity), Nat.div_eq_of_lt (ube_lt bs), Nat.add_zero]

/-- The bytes after the lead byte spell the remainder. -/
theorem ube_cons_mod (b : Byte) (bs : List Byte) : ube (b :: bs) % 256 ^ bs.length = ube bs := by
  rw [ube, Nat.mul_comm, Nat.mul_add_mod, Nat.mod_eq_of_lt (ube_lt bs)]

/-- Byte strings of one length that spell the same number are equal. -/
theorem ube_injective (bs cs : List Byte) (hl : bs.length = cs.length) (h : ube bs = ube cs) : bs = cs := by
  induction bs generalizing cs with
  | nil => exact (List.length_eq_zero_iff.1 hl.symm).symm
  | cons b bs ih =>
    cases cs with
    | nil => cases hl
    | cons c cs =>
      have hl : bs.length = cs.length := Nat.succ.inj hl
      have hb : b = c := BitVec.eq_of_toNat_eq (by rw [← ube_cons_div b bs, ← ube_cons_div c cs, h, hl])
      have hbs : bs = cs := ih cs hl (by rw [← ube_cons_mod b bs, ← ube_cons_mod c cs, h, hl])
      rw [hb, hbs]

/-- A byte string is the `BE` of the number it spells. -/
theorem be_ube (bs : List Byte) : be (ube bs) bs.length = bs :=
  ube_injective _ _ (length_be _ _) (by rw [ube_be, Nat.mod_eq_of_lt (ube_lt bs)])

/-- Settles O6: `UBE` after `BE` is the remainder modulo 256^n, and `UBE` is injective on byte strings of one length. -/
theorem ubeInvertsBe : Obligations.UbeInvertsBe :=
  ⟨fun v n hv => ⟨length_be v n, by rw [ube_be, Nat.mod_eq_of_lt hv]⟩, fun s => ⟨ube_lt s, be_ube s⟩⟩

end Sys2Proof.Machine
end

/-! ## The construction of the blocks (R7) -/

section
namespace Sys2Proof.Machine

/-- A number names a variant exactly when it is 1, 2 or 3. -/
theorem variantOf_cases (k : Nat) :
    (1 ≤ k ∧ k ≤ 3 ∧ ∃ v, variantOf k = some v) ∨ (¬(1 ≤ k ∧ k ≤ 3) ∧ variantOf k = none) := by
  match k with
  | 0 => exact .inr ⟨by omega, rfl⟩
  | 1 | 2 | 3 => exact .inl ⟨by omega, by omega, _, rfl⟩
  | k + 4 => exact .inr ⟨by omega, rfl⟩

theorem buildEncoder_of_no_variant (k n r : Nat) (bufCap : Option Nat) (h : variantOf k = none) :
    buildEncoder k n r bufCap = none := by
  rw [buildEncoder, h]

theorem buildEncoder_of_variant (k n r : Nat) (bufCap : Option Nat) (v : Variant) (h : variantOf k = some v) :
    buildEncoder k n r bufCap =
      if 0 < n ∧ r < 2 ^ 32 then some (EncState.reset { variant := v, n := n, r := r, bufCap := bufCap })
      else none := by
  rw [buildEncoder, h]

theorem buildDecoder_of_no_variant (k n signOffset : Nat) (signed : List Nat) (h : variantOf k = none) :
    buildDecoder k n signed signOffset = none := by
  rw [buildDecoder, h]

theorem buildDecoder_of_variant (k n signOffset : Nat) (signed : List Nat) (v : Variant) (h : variantOf k = some v) :
    buildDecoder k n signed signOffset =
      if 0 < n ∧ (∀ i ∈ signed, i < n) ∧ signed.Pairwise (· < ·) ∧ signOffset < 2 ^ 31 then
        some (DecState.reset { variant := v, n := n, signed := signed, signOffset := signOffset })
      else none := by
  rw [buildDecoder, h]

/-- An encoder is built exactly for parameters in their domain, in its reset state. -/
theorem buildEncoder_exactly_on_domain (k n r : Nat) (bufCap : Option Nat) :
    (1 ≤ k ∧ k ≤ 3 ∧ 1 ≤ n ∧ r < 2 ^ 32 →
      ∃ e, buildEncoder k n r bufCap = some e ∧ variantOf k = some e.cfg.variant ∧ e.cfg.n = n ∧
        e.cfg.r = r ∧ e.cfg.bufCap = bufCap ∧ e = EncState.reset e.cfg) ∧
    (¬(1 ≤ k ∧ k ≤ 3 ∧ 1 ≤ n ∧ r < 2 ^ 32) → buildEncoder k n r bufCap = none) := by
  obtain ⟨h1, h3, v, hv⟩ | ⟨hk, hv⟩ := variantOf_cases k
  · rw [buildEncoder_of_variant k n r bufCap v hv]
    constructor
    · rintro ⟨-, -, hn, hr⟩
      exact ⟨_, if_pos ⟨hn, hr⟩, hv, rfl, rfl, rfl, rfl⟩
    · intro h
      exact if_neg fun ⟨hn, hr⟩ => h ⟨h1, h3, hn, hr⟩
  · rw [buildEncoder_of_no_variant k n r bufCap hv]
    exact ⟨fun ⟨h1, h3, _⟩ => absurd ⟨h1, h3⟩ hk, fun _ => rfl⟩

/-- A decoder is built exactly for parameters in their domain, in its reset state. -/
theorem buildDecoder_exactly_on_domain (k n signOffset : Nat) (signed : List Nat) (hs : signed.Pairwise (· < ·)) :
    (1 ≤ k ∧ k ≤ 3 ∧ 1 ≤ n ∧ (∀ i ∈ signed, i < n) ∧ signOffset < 2 ^ 31 →
      ∃ d, buildDecoder k n signed signOffset = some d ∧ variantOf k = some d.cfg.variant ∧ d.cfg.n = n ∧
        d.cfg.signed = signed ∧ d.cfg.signOffset = signOffset ∧ d = DecState.reset d.cfg) ∧
    (¬(1 ≤ k ∧ k ≤ 3 ∧ 1 ≤ n ∧ (∀ i ∈ signed, i < n) ∧ signOffset < 2 ^ 31) →
      buildDecoder k n signed signOffset = none) := by
  obtain ⟨h1, h3, v, hv⟩ | ⟨hk, hv⟩ := variantOf_cases k
  · rw [buildDecoder_of_variant k n signOffset signed v hv]
    constructor
    · rintro ⟨-, -, hn, hi, ho⟩
      exact ⟨_, if_pos ⟨hn, hi, hs, ho⟩, hv, rfl, rfl, rfl, rfl⟩
    · intro h
      exact if_neg fun ⟨hn, hi, _, ho⟩ => h ⟨h1, h3, hn, hi, ho⟩
  · rw [buildDecoder_of_no_variant k n signOffset signed hv]
    exact ⟨fun ⟨h1, h3, _⟩ => absurd ⟨h1, h3⟩ hk, fun _ => rfl⟩

/-- Settles O52: with a variant, building is the test of the configuration's domain; without one it refuses. -/
theorem onlyValidParametersBuild : Obligations.OnlyValidParametersBuild :=
  ⟨buildEncoder_exactly_on_domain, buildDecoder_exactly_on_domain⟩

end Sys2Proof.Machine
end

/-! ## What a block's operation leaves alone (R3, R7, R123) -/

section
namespace Sys2Proof.Machine

/-- From `s` to `t` at most registers of block `b` change: the parameters of both blocks, the whole other block and the
host's inputs are as before. -/
structure Confined (b : Block) (s t : State) : Prop where
  encCfg : t.enc.cfg = s.enc.cfg
  decCfg : t.dec.cfg = s.dec.cfg
  enc : b = .decoder → t.enc = s.enc
  dec : b = .encoder → t.dec = s.dec
  inputs : t.inputs = s.inputs

theorem confined_encoder (s t : State) (hcfg : t.enc.cfg = s.enc.cfg) (hdec : t.dec = s.dec)
    (hin : t.inputs = s.inputs) : Confined .encoder s t :=
  ⟨hcfg, by rw [hdec], nofun, fun _ => hdec, hin⟩

theorem confined_decoder (s t : State) (hcfg : t.dec.cfg = s.dec.cfg) (henc : t.enc = s.enc)
    (hin : t.inputs = s.inputs) : Confined .decoder s t :=
  ⟨by rw [henc], hcfg, fun _ => henc, nofun, hin⟩

@[refl] theorem Confined.refl (b : Block) (s : State) : Confined b s s :=
  ⟨rfl, rfl, fun _ => rfl, fun _ => rfl, rfl⟩

theorem Confined.trans {b : Block} {s t u : State} (h : Confined b s t) (k : Confined b t u) : Confined b s u :=
  ⟨k.encCfg.trans h.encCfg, k.decCfg.trans h.decCfg, fun e => (k.enc e).trans (h.enc e),
    fun e => (k.dec e).trans (h.dec e), k.inputs.trans h.inputs⟩

/-! ### The shared operations -/

theorem respond_confined (b : Block) (st : Status) (info : Info) (rows : List Row) (s : State) :
    Confined b s (s.respond b st info rows) := by
  cases b
  case encoder => exact confined_encoder _ _ rfl rfl rfl
  case decoder => exact confined_decoder _ _ rfl rfl rfl

theorem hardwareReset_confined (b : Block) (s : State) : Confined b s (s.hardwareReset b) := by
  cases b
  case encoder => exact confined_encoder _ _ rfl rfl rfl
  case decoder => exact confined_decoder _ _ rfl rfl rfl

/-- A fault leaves the other block alone (R117, R123): its latch and its answer are the block's own. -/
theorem takeFault_confined (b : Block) (f : FaultReport) (s : State) : Confined b s (s.takeFault b f) := by
  cases b
  case encoder =>
    rw [takeFault_encoder]
    exact respond_confined ..
  case decoder =>
    cases hf : sticky f.status with
    | false =>
      rw [takeFault_decoder_plain f s hf]
      exact respond_confined ..
    | true =>
      have hlatch : Confined .decoder s { s with dec := s.dec.latch f.status } := confined_decoder _ _ rfl rfl rfl
      rw [State.takeFault, if_pos hf]
      exact hlatch.trans (respond_confined ..)

theorem commit_confined (v : Value) (len : Nat) (a : Decoding) (s : State) : Confined .decoder s (s.commit v len a) :=
  confined_decoder _ _ (commit_cfg v len a s) (commit_enc v len a s) (commit_inputs v len a s)

theorem beginDecompress_confined (chunk : List Byte) (s : State) : Confined .decoder s (s.beginDecompress chunk) :=
  confined_decoder _ _ (begin_cfg chunk s) (begin_enc chunk s) (begin_inputs chunk s)

theorem finishDecompress_confined (a : Decoding) (s : State) : Confined .decoder s (s.finishDecompress a) :=
  confined_decoder _ _ (finish_cfg a s) (finish_enc a s) (finish_inputs a s)

theorem truncated_confined (a : Decoding) (s : State) : Confined .decoder s (s.truncated a) :=
  takeFault_confined ..

theorem endOfChunk_confined (a : Decoding) (s : State) : Confined .decoder s (s.endOfChunk a) := by
  obtain ⟨-, h⟩ | ⟨-, h⟩ := endOfChunk_cases s a
  · rw [h]
    exact finishDecompress_confined a s
  · rw [h]
    exact truncated_confined a s

/-! ### The instructions -/

/-- The block an instruction arrives at (R3): the port of its command, and the decoder for a form of the stream. -/
def blockOf (i : Instr) : Block :=
  match encode i with
  | .form _ => .decoder
  | .command c => c.block

theorem blockOf_form (i : Instr) (f : Form) (h : formOf i = some f) : blockOf i = .decoder := by
  cases i <;> cases h <;> rfl

theorem execWriteRow_confined (row : List Word) (s t : State) (h : execWriteRow row s = .next t) :
    Confined .encoder s t := by
  obtain ⟨c, -, hx⟩ | ⟨-, -, hx⟩ | ⟨-, -, hx⟩ := execWriteRow_cases row s
  all_goals cases hx.symm.trans h
  · exact respond_confined ..
  · exact respond_confined ..
  · exact confined_encoder _ _ rfl rfl rfl

theorem execGetData_confined (s t : State) (h : execGetData s = .next t) : Confined .encoder s t := by
  unfold execGetData at h
  split at h <;> cases h
  exact respond_confined ..

theorem execGetRatio_confined (s t : State) (h : execGetRatio s = .next t) : Confined .encoder s t := by
  unfold execGetRatio at h
  split at h <;> cases h
  · exact takeFault_confined ..
  · exact respond_confined ..

theorem execDecompress_confined (chunk : List Byte) (s t : State) (h : execDecompress chunk s = .next t) :
    Confined .decoder s t := by
  unfold execDecompress at h
  split at h <;> cases h
  · exact beginDecompress_confined ..
  · exact takeFault_confined ..

theorem execDGetRatio_confined (s t : State) (h : execDGetRatio s = .next t) : Confined .decoder s t := by
  unfold execDGetRatio at h
  split at h <;> cases h
  · exact takeFault_confined ..
  · exact respond_confined ..

theorem executeForm_confined (len : Nat) (value : Except FaultReport Value) (s t : State)
    (h : executeForm len value s = .next t) : Confined .decoder s t := by
  obtain ⟨-, hx⟩ | ⟨a, v, -, -, hx⟩ | ⟨a, f, -, -, hx⟩ := executeForm_cases len value s
  all_goals cases hx.symm.trans h
  · exact commit_confined ..
  · exact takeFault_confined ..

/-- A wire form works on the decoder only. -/
theorem exec_form_confined (i : Instr) (f : Form) (s t : State) (hf : formOf i = some f) (h : exec i s = .next t) :
    Confined (blockOf i) s t := by
  obtain ⟨value, hx, -⟩ := exec_form i f s hf
  rw [blockOf_form i f hf]
  exact executeForm_confined _ value s t (hx ▸ h)

/-- A command works on the block at whose port it is presented only. -/
theorem exec_command_confined (i : Instr) (s t : State) (hf : formOf i = none) (h : exec i s = .next t) :
    Confined (blockOf i) s t := by
  cases i with
  | writeRow row => exact execWriteRow_confined row s t h
  | eReset => cases h; exact confined_encoder _ _ rfl rfl rfl
  | getData => exact execGetData_confined s t h
  | getRatio => exact execGetRatio_confined s t h
  | decompress chunk => exact execDecompress_confined chunk s t h
  | dGetRatio => exact execDGetRatio_confined s t h
  | getUsize | getCsize | dGetUsize | dGetCsize | dGetStatus => cases h; exact respond_confined ..
  | raw | v1d3 | v2d2 | v2d3 | v3d1 | v3d2 | v3d3 => cases hf

/-- An instruction works on the block it arrives at and on nothing else (R3, R123). -/
theorem exec_confined (i : Instr) (s t : State) (h : exec i s = .next t) : Confined (blockOf i) s t := by
  cases hf : formOf i with
  | some f => exact exec_form_confined i f s t hf h
  | none => exact exec_command_confined i s t hf h

/-- Settles O44: every instruction is confined to the block it arrives at. -/
theorem blocksShareNothing : Obligations.BlocksShareNothing := by
  refine ⟨fun s t i row hi h => ?_, fun s t i chunk hi h => ?_, fun s t i sg v m1 m2 m3 m4 m5 m6 hi h => ?_⟩
  all_goals have hc := exec_confined i s t h
  · have hb : blockOf i = .encoder := by
      simp only [List.mem_cons, List.not_mem_nil, or_false] at hi
      rcases hi with rfl | rfl | rfl | rfl | rfl | rfl <;> rfl
    exact ⟨hc.dec hb, hc.inputs⟩
  · have hb : blockOf i = .decoder := by
      simp only [List.mem_cons, List.not_mem_nil, or_false] at hi
      rcases hi with rfl | rfl | rfl | rfl | rfl <;> rfl
    exact ⟨hc.enc hb, hc.inputs⟩
  · have hb : blockOf i = .decoder := by
      simp only [List.mem_cons, List.not_mem_nil, or_false] at hi
      rcases hi with rfl | rfl | rfl | rfl | rfl | rfl | rfl <;> rfl
    exact ⟨hc.enc hb, hc.inputs⟩

end Sys2Proof.Machine
end

/-! ## What a step leaves alone -/

section
namespace Sys2Proof.Machine

/-- What `fetch` does with the host's inputs (R100, R125): nothing is presented, a step is idle, a reset pin is pulsed,
a command waits for a busy block, or a command is taken. -/
theorem fetch_cases (s : State) :
    (s.inputs = [] ∧ fetch s = fetchDecoder s) ∨
    (∃ rest, s.inputs = .idle :: rest ∧ fetch s = fetchDecoder { s with inputs := rest }) ∨
    (∃ b rest, s.inputs = .rst b :: rest ∧ fetch s = .event (State.hardwareReset b { s with inputs := rest })) ∨
    (∃ c rest, s.inputs = .command c :: rest ∧ busy c.block s = true ∧ fetch s = fetchDecoder s) ∨
    (∃ c rest, s.inputs = .command c :: rest ∧ busy c.block s = false ∧
      fetch s = fetchCommand c { s with inputs := rest }) := by
  match hin : s.inputs with
  | [] => exact .inl ⟨rfl, by simp only [fetch, hin]⟩
  | .idle :: rest => exact .inr (.inl ⟨rest, rfl, by simp only [fetch, hin]⟩)
  | .rst b :: rest => exact .inr (.inr (.inl ⟨b, rest, rfl, by simp only [fetch, hin]⟩))
  | .command c :: rest =>
    cases hb : busy c.block s with
    | true => exact .inr (.inr (.inr (.inl ⟨c, rest, rfl, hb, by simp [fetch, hin, hb]⟩)))
    | false => exact .inr (.inr (.inr (.inr ⟨c, rest, rfl, hb, by simp [fetch, hin, hb]⟩)))

/-- What was found to do starts from `s`: an instruction is run at `s` itself, and an event changes one block only. -/
def Fetched.StartsFrom (s : State) : Fetched → Prop
  | .instr _ t => t = s
  | .event t => ∃ b, Confined b s t
  | .absent _ => True

theorem fetchForm_startsFrom (a : Decoding) (s : State) : (fetchForm a s).StartsFrom s := by
  obtain ⟨-, h⟩ | ⟨-, _, _, -, -, h⟩ | ⟨-, _, _, -, -, h⟩ | ⟨-, -, h⟩ := fetchForm_cases s a <;> rw [h]
  · exact ⟨_, endOfChunk_confined a s⟩
  · exact rfl
  · exact ⟨_, truncated_confined a s⟩
  · exact trivial

theorem fetchDecoder_startsFrom (s : State) : (fetchDecoder s).StartsFrom s := by
  unfold fetchDecoder
  split
  · exact ⟨.decoder, .refl _ s⟩
  · exact fetchForm_startsFrom _ s

theorem fetchCommand_startsFrom (c : Command) (s : State) : (fetchCommand c s).StartsFrom s := by
  unfold fetchCommand
  split
  · exact rfl
  · exact ⟨_, takeFault_confined ..⟩

/-- A step takes at most one input, and what it finds to do starts from the state without that input. -/
theorem fetch_startsFrom (s : State) :
    ∃ rest, (s.inputs = rest ∨ ∃ i, s.inputs = i :: rest) ∧ (fetch s).StartsFrom { s with inputs := rest } := by
  obtain ⟨-, h⟩ | ⟨rest, hin, h⟩ | ⟨b, rest, hin, h⟩ | ⟨_, _, -, -, h⟩ | ⟨c, rest, hin, -, h⟩ := fetch_cases s
  all_goals rw [h]
  · exact ⟨_, .inl rfl, fetchDecoder_startsFrom s⟩
  · exact ⟨rest, .inr ⟨_, hin⟩, fetchDecoder_startsFrom _⟩
  · exact ⟨rest, .inr ⟨_, hin⟩, b, hardwareReset_confined b _⟩
  · exact ⟨_, .inl rfl, fetchDecoder_startsFrom s⟩
  · exact ⟨rest, .inr ⟨_, hin⟩, fetchCommand_startsFrom c _⟩

/-- A step takes at most one input and otherwise changes registers of one block only (R3, R123). -/
theorem step_confined (s t : State) (h : step s = .next t) :
    ∃ b rest, (s.inputs = rest ∨ ∃ i, s.inputs = i :: rest) ∧ Confined b { s with inputs := rest } t := by
  obtain ⟨rest, hin, hstart⟩ := fetch_startsFrom s
  obtain ⟨i, u, hf, hx⟩ | ⟨u, hf, hx⟩ | ⟨a, -, hx⟩ := step_of_fetch s
  · rw [hf] at hstart
    obtain rfl : u = { s with inputs := rest } := hstart
    exact ⟨_, rest, hin, exec_confined i _ t (hx ▸ h)⟩
  · rw [hf] at hstart
    obtain ⟨b, hb⟩ := hstart
    cases hx.symm.trans h
    exact ⟨b, rest, hin, hb⟩
  · cases hx.symm.trans h

/-- Settles O43: a step is confined to one block, and no block changes its parameters. -/
theorem configurationNeverChanges : Obligations.ConfigurationNeverChanges := by
  intro s t h
  obtain ⟨b, rest, -, hc⟩ := step_confined s t h
  exact ⟨hc.encCfg, hc.decCfg⟩

end Sys2Proof.Machine
end

/-! # Proofs: the state of the two blocks (spec/10_state.md)

What a step can do to each block is said once, as `EncChange` and `DecChange`; the invariants and what stays until a
reset are read off their cases. -/

/-! ## The length of a row's forms (R38, R64 to R70) -/

section
namespace Sys2Proof.Machine

@[simp] theorem length_emitRaw (new : Nat) : (emitRaw new).length = 4 :=
  length_be new 4

/-- A delta form has the byte count of its level (R63), which is 1, 2 or 3. -/
theorem length_of_emitDelta (v : Variant) (k : Nat) (sg : Bool) (off : Nat) (f : List Byte)
    (h : emitDelta v k sg off = some f) : f.length = k ∧ 1 ≤ k ∧ k ≤ 3 := by
  unfold emitDelta at h
  split at h <;> cases h <;> exact ⟨length_be _ _, by decide, by decide⟩

/-- An encoded value takes 1 to 4 bytes (R38). -/
theorem length_encodeDelta (v : Variant) (last new : Nat) :
    1 ≤ (encodeDelta v last new).length ∧ (encodeDelta v last new).length ≤ 4 := by
  unfold encodeDelta
  split
  · simp
  · rename_i k _
    cases hf : emitDelta v k (signBit last new) (offset last new) with
    | none => simp
    | some f =>
      obtain ⟨hlen, hlow, hhigh⟩ := length_of_emitDelta v k _ _ f hf
      simp only [Option.getD_some]
      omega

/-- A row has one form for each column (R59 step 3). -/
theorem length_rowForms (e : EncState) (row : List Word) (hlast : e.last.length = e.cfg.n)
    (hrow : row.length = e.cfg.n) : (rowForms e row).length = e.cfg.n := by
  unfold rowForms
  split
  · rw [List.length_map, hrow]
  · rw [List.length_zipWith, hlast, hrow, Nat.min_self]

/-- Each form of a row takes 1 to 4 bytes, whether or not the row is forced raw (R38). -/
theorem length_of_mem_rowForms (e : EncState) (row : List Word) (f : List Byte) (hf : f ∈ rowForms e row) :
    1 ≤ f.length ∧ f.length ≤ 4 := by
  unfold rowForms at hf
  split at hf
  · obtain ⟨w, -, rfl⟩ := List.mem_map.1 hf
    simp
  · rw [← List.map_uncurry_zip_eq_zipWith] at hf
    obtain ⟨p, -, rfl⟩ := List.mem_map.1 hf
    exact length_encodeDelta ..

/-- A row takes 1 to 4 bytes for each of its columns (R38, R72 item 6). -/
theorem formsLength_rowForms (e : EncState) (row : List Word) (hlast : e.last.length = e.cfg.n)
    (hrow : row.length = e.cfg.n) :
    e.cfg.n ≤ formsLength (rowForms e row) ∧ formsLength (rowForms e row) ≤ 4 * e.cfg.n := by
  have hcount := length_rowForms e row hlast hrow
  have hlow := List.card_nsmul_le_sum ((rowForms e row).map List.length) 1 (by
    intro k hk
    obtain ⟨f, hf, rfl⟩ := List.mem_map.1 hk
    exact (length_of_mem_rowForms e row f hf).1)
  have hhigh := List.sum_le_card_nsmul ((rowForms e row).map List.length) 4 (by
    intro k hk
    obtain ⟨f, hf, rfl⟩ := List.mem_map.1 hk
    exact (length_of_mem_rowForms e row f hf).2)
  rw [List.length_map, hcount, smul_eq_mul, ← List.length_flatten] at hlow hhigh
  unfold formsLength
  omega

end Sys2Proof.Machine
end

/-! ## What a step can do to the encoder (R15) -/

section
namespace Sys2Proof.Machine

/-- What a step can do to an encoder: answer and leave every register alone, go to the reset state (only where
`emptied` says why: R90, R125), or accept a row of N values that fits (R59 step 5). -/
inductive EncChange (emptied : Prop) (e : EncState) : EncState → Prop where
  | answers (r : Option Response) : EncChange emptied e { e with rsp := r }
  | resets (why : emptied) (r : Option Response) : EncChange emptied e { EncState.reset e.cfg with rsp := r }
  | accepts (row : List Word) (r : Option Response) (inRange : firstOutOfRange row = none)
      (columns : row.length = e.cfg.n)
      (fits : overflows e.cfg.bufCap (e.bufLen + formsLength (rowForms e row)) = false) :
      EncChange emptied e { e.acceptRow row (rowForms e row) with rsp := r }

@[refl] theorem EncChange.refl (emptied : Prop) (e : EncState) : EncChange emptied e e :=
  .answers e.rsp

theorem execWriteRow_encChange {P : Prop} (row : List Word) (s t : State) (hrow : row.length = s.enc.cfg.n)
    (h : execWriteRow row s = .next t) : EncChange P s.enc t.enc := by
  obtain ⟨c, -, hx⟩ | ⟨-, -, hx⟩ | ⟨hok, hfit, hx⟩ := execWriteRow_cases row s
  all_goals cases hx.symm.trans h
  · exact .answers _
  · exact .answers _
  · exact .accepts row _ hok hrow hfit

theorem execGetData_encChange {P : Prop} (s t : State) (h : execGetData s = .next t) : EncChange P s.enc t.enc := by
  unfold execGetData at h
  split at h <;> cases h
  exact .answers _

theorem execGetRatio_encChange {P : Prop} (s t : State) (h : execGetRatio s = .next t) : EncChange P s.enc t.enc := by
  unfold execGetRatio at h
  split at h <;> cases h <;> exact .answers _

theorem refuseCommand_encChange {P : Prop} (b : Block) (s : State) : EncChange P s.enc (s.refuseCommand b).enc := by
  cases b
  case encoder => exact .answers _
  case decoder =>
    have henc : (s.refuseCommand .decoder).enc = s.enc := (takeFault_confined ..).enc rfl
    exact henc ▸ .refl P s.enc

/-- A command that exists for the encoder's column count changes the encoder in these ways only; the one that empties
it is `E_RESET`. -/
theorem exec_encChange {P : Prop} (v : Variant) (i : Instr) (s t : State) (hwf : WellFormed v s.enc.cfg.n i = true)
    (hreset : i = .eReset → P) (h : exec i s = .next t) : EncChange P s.enc t.enc := by
  cases hb : blockOf i with
  | decoder => exact (exec_confined i s t h).enc hb ▸ .refl P s.enc
  | encoder =>
    cases i with
    | writeRow row => exact execWriteRow_encChange row s t (beq_iff_eq.1 hwf) h
    | eReset => cases h; exact .resets (hreset rfl) _
    | getData => exact execGetData_encChange s t h
    | getUsize | getCsize => cases h; exact .answers _
    | getRatio => exact execGetRatio_encChange s t h
    | raw | v1d3 | v2d2 | v2d3 | v3d1 | v3d2 | v3d3 | decompress | dGetUsize | dGetCsize | dGetRatio | dGetStatus =>
      cases hb

end Sys2Proof.Machine
end

/-! ## What a step can do to the decoder (R22) -/

section
namespace Sys2Proof.Machine

/-- What a step can do to a decoder: answer and leave every register alone, go to the reset state (only where `pinned`
says why: R125), take a chunk (R73 step 1), commit a value from bytes that are all in the chunk (R84), end the chunk at
a row boundary (R73 step 4), or latch a sticky fault of the running operation (R117). -/
inductive DecChange (pinned : Prop) (d : DecState) : DecState → Prop where
  | answers (r : Option Response) : DecChange pinned d { d with rsp := r }
  | resets (why : pinned) : DecChange pinned d (DecState.reset d.cfg)
  | begins (chunk : List Byte) (noFault : d.fault = 0) :
      DecChange pinned d { d with
        active := some { chunk := Memory.ofBytes chunk, len := chunk.length, pos := 0, rows := [] }
        rsp := none }
  | commits (a : Decoding) (v : Value) (len : Nat) (running : d.active = some a) (present : a.pos + len ≤ a.len) :
      DecChange pinned d { d.committed v with
        active := some (a.advance len (d.committed v).cur (d.committed v).rowAcc) }
  | finishes (a : Decoding) (r : Option Response) (running : d.active = some a) (boundary : d.cur = 0) :
      DecChange pinned d { d with
        comp := a.len
        uncomp := a.rows.length * d.cfg.n * 4
        active := none
        rsp := r }
  | latches (a : Decoding) (st : Status) (r : Option Response) (running : d.active = some a)
      (stays : sticky st = true) :
      DecChange pinned d { d with fault := statusCode st, active := none, rsp := r }

@[refl] theorem DecChange.refl (pinned : Prop) (d : DecState) : DecChange pinned d d :=
  .answers d.rsp

/-- A fault that is not sticky only answers (R117). -/
theorem takeFault_plain_decChange {Q : Prop} (b : Block) (f : FaultReport) (s : State)
    (hf : sticky f.status = false) : DecChange Q s.dec (s.takeFault b f).dec := by
  cases b
  case encoder => exact .refl Q s.dec
  case decoder =>
    rw [takeFault_decoder_plain f s hf]
    exact .answers _

/-- A sticky fault inside a `DECOMPRESS` latches (R117). -/
theorem takeFault_sticky_decChange {Q : Prop} (a : Decoding) (f : FaultReport) (s : State)
    (ha : s.dec.active = some a) (hf : sticky f.status = true) :
    DecChange Q s.dec (s.takeFault .decoder f).dec := by
  rw [takeFault_decoder_sticky f s a hf ha]
  exact .latches a f.status _ ha hf

theorem endOfChunk_decChange {Q : Prop} (a : Decoding) (s : State) (ha : s.dec.active = some a) :
    DecChange Q s.dec (s.endOfChunk a).dec := by
  obtain ⟨hcur, h⟩ | ⟨-, h⟩ := endOfChunk_cases s a
  · rw [h]
    exact .finishes a _ ha hcur
  · rw [h]
    exact takeFault_sticky_decChange a _ s ha rfl

theorem execDecompress_decChange {Q : Prop} (chunk : List Byte) (s t : State)
    (h : execDecompress chunk s = .next t) : DecChange Q s.dec t.dec := by
  unfold execDecompress at h
  split at h <;> cases h
  · exact .begins chunk ‹_›
  · exact takeFault_plain_decChange .decoder _ s rfl

theorem execDGetRatio_decChange {Q : Prop} (s t : State) (h : execDGetRatio s = .next t) :
    DecChange Q s.dec t.dec := by
  unfold execDGetRatio at h
  split at h <;> cases h
  · exact takeFault_plain_decChange .decoder _ s rfl
  · exact .answers _

/-- A form whose bytes are all in the chunk commits its value or latches its fault (R73 step 2). -/
theorem exec_form_decChange {Q : Prop} (i : Instr) (f : Form) (s t : State) (a : Decoding) (hf : formOf i = some f)
    (ha : s.dec.active = some a) (hlen : a.pos + formLength f ≤ a.len) (h : exec i s = .next t) :
    DecChange Q s.dec t.dec := by
  obtain ⟨value, hx, hsticky⟩ := exec_form i f s hf
  rw [hx] at h
  obtain ⟨-, hy⟩ | ⟨b, v, hb, -, hy⟩ | ⟨b, e, hb, he, hy⟩ := executeForm_cases (formLength f) value s
  all_goals cases hy.symm.trans h
  · obtain rfl : a = b := Option.some.inj (ha.symm.trans hb)
    exact .commits a v _ ha hlen
  · exact takeFault_sticky_decChange b e s hb (hsticky e he)

/-- A command takes a chunk or only answers, as to the decoder. -/
theorem exec_command_decChange {Q : Prop} (i : Instr) (s t : State) (hf : formOf i = none)
    (h : exec i s = .next t) : DecChange Q s.dec t.dec := by
  cases hb : blockOf i with
  | encoder => exact (exec_confined i s t h).dec hb ▸ .refl Q s.dec
  | decoder =>
    cases i with
    | decompress chunk => exact execDecompress_decChange chunk s t h
    | dGetRatio => exact execDGetRatio_decChange s t h
    | dGetUsize | dGetCsize | dGetStatus => cases h; exact .answers _
    | writeRow | eReset | getData | getUsize | getCsize | getRatio => cases hb
    | raw | v1d3 | v2d2 | v2d3 | v3d1 | v3d2 | v3d3 => cases hf

end Sys2Proof.Machine
end

/-! ## What a step can do -/

section
namespace Sys2Proof.Machine

/-- What is found to do is done. -/
def Fetched.run : Fetched → Host.Outcome State Fault Refusal
  | .instr i t => exec i t
  | .event t => .next t
  | .absent a => .fault (.absentByte a)

theorem step_eq_run (s : State) : step s = (fetch s).run := by
  unfold step
  cases fetch s <;> rfl

/-- A command that decodes is no form, and exists for the encoder's column count (R59, R89). -/
theorem decodeCommand_ok (v : Variant) (n : Nat) (c : Command) (i : Instr) (h : decodeCommand n c = .ok i) :
    formOf i = none ∧ WellFormed v n i = true := by
  unfold decodeCommand at h
  split at h
  · unfold decodeEncoderCommand at h
    split at h <;> cases h
    case h_1 => exact ⟨rfl, beq_iff_eq.2 (length_unpackRow n c.row)⟩
    all_goals exact ⟨rfl, rfl⟩
  · unfold decodeDecoderCommand at h
    split at h <;> cases h <;> exact ⟨rfl, rfl⟩

/-- `E_RESET` is the encoder's command of code 1 (R89). -/
theorem decodeCommand_eReset (n : Nat) (c : Command) (h : decodeCommand n c = .ok .eReset) :
    c.block = .encoder ∧ c.op = 1 := by
  unfold decodeCommand at h
  split at h
  · unfold decodeEncoderCommand at h
    split at h <;> cases h
    exact ⟨‹_›, BitVec.eq_of_toNat_eq ‹_›⟩
  · unfold decodeDecoderCommand at h
    split at h <;> cases h

/-- The bytes of a form that decodes from the window at `D_POS` are all in the chunk (R74). -/
theorem form_bytes_present (a : Decoding) (v : Variant) (bs : List Byte) (i : Instr) (hpos : a.pos < a.len)
    (hb : a.chunk.readBytes a.pos (windowLength a) = some bs) (hd : decodeForm v bs = .ok i) :
    ∃ f, formOf i = some f ∧ a.pos + formLength f ≤ a.len := by
  obtain ⟨b, rest, -, hf, hlen⟩ := decodeForm_ok v bs i hd
  obtain ⟨hwindow, -⟩ := (Memory.readBytes_eq_some _ _ _ _).1 hb
  have hle : windowLength a ≤ a.len - a.pos := Nat.min_le_right _ _
  exact ⟨_, hf, by omega⟩

/-- A turn of the decoder leaves the encoder alone, and the decoder waits, runs a form or ends its operation. -/
theorem fetchDecoder_changes {Q : Prop} (s t : State) (h : (fetchDecoder s).run = .next t) :
    t.enc = s.enc ∧ DecChange Q s.dec t.dec := by
  cases ha : s.dec.active with
  | none =>
    simp only [fetchDecoder, ha, Fetched.run] at h
    cases h
    exact ⟨rfl, .refl Q s.dec⟩
  | some a =>
    simp only [fetchDecoder, ha] at h
    obtain ⟨-, hx⟩ | ⟨hpos, bs, i, hb, hd, hx⟩ | ⟨-, _, _, -, -, hx⟩ | ⟨-, -, hx⟩ := fetchForm_cases s a
    all_goals rw [hx] at h
    · cases h
      exact ⟨(endOfChunk_confined a s).enc rfl, endOfChunk_decChange a s ha⟩
    · obtain ⟨f, hf, hlen⟩ := form_bytes_present a _ bs i hpos hb hd
      exact ⟨(exec_confined i s t h).enc (blockOf_form i f hf), exec_form_decChange i f s t a hf ha hlen h⟩
    · cases h
      exact ⟨(truncated_confined a s).enc rfl, takeFault_sticky_decChange a _ s ha rfl⟩
    · cases h

/-- A command that is taken runs its instruction, or is refused by an answer (R89). -/
theorem fetchCommand_changes {P Q : Prop} (c : Command) (s t : State) (hreset : c.block = .encoder → c.op = 1 → P)
    (h : (fetchCommand c s).run = .next t) : EncChange P s.enc t.enc ∧ DecChange Q s.dec t.dec := by
  cases hd : decodeCommand s.enc.cfg.n c with
  | ok i =>
    simp only [fetchCommand, hd, Fetched.run] at h
    obtain ⟨hf, hwf⟩ := decodeCommand_ok .v1 _ c i hd
    refine ⟨exec_encChange .v1 i s t hwf ?_ h, exec_command_decChange i s t hf h⟩
    rintro rfl
    obtain ⟨hblock, hop⟩ := decodeCommand_eReset _ c hd
    exact hreset hblock hop
  | error e =>
    simp only [fetchCommand, hd, Fetched.run] at h
    cases h
    exact ⟨refuseCommand_encChange c.block s, takeFault_plain_decChange c.block _ s rfl⟩

/-- What a step can do to the two blocks: the encoder is emptied by its reset pin and `E_RESET` only, and the decoder is
reset by its pin only. -/
theorem step_changes (s t : State) (h : step s = .next t) :
    EncChange (EncoderResetNext s) s.enc t.enc ∧
      DecChange (s.inputs.head? = some (.rst .decoder)) s.dec t.dec := by
  rw [step_eq_run] at h
  obtain ⟨-, hx⟩ | ⟨rest, -, hx⟩ | ⟨b, rest, hin, hx⟩ | ⟨-, -, -, -, hx⟩ | ⟨c, rest, hin, -, hx⟩ := fetch_cases s
  all_goals rw [hx] at h
  · obtain ⟨henc, hdec⟩ := fetchDecoder_changes s t h
    exact ⟨henc ▸ .refl _ _, hdec⟩
  · obtain ⟨henc, hdec⟩ := fetchDecoder_changes _ t h
    exact ⟨henc ▸ .refl _ _, hdec⟩
  · cases h
    cases b with
    | encoder => exact ⟨.resets (.inl (by rw [hin]; rfl)) none, .refl _ _⟩
    | decoder => exact ⟨.refl _ _, .resets (by rw [hin]; rfl)⟩
  · obtain ⟨henc, hdec⟩ := fetchDecoder_changes s t h
    exact ⟨henc ▸ .refl _ _, hdec⟩
  · have hreset (hblock : c.block = .encoder) (hop : c.op = 1) : EncoderResetNext s :=
      .inr ⟨c, by rw [hin]; rfl, hblock, hop⟩
    exact fetchCommand_changes c { s with inputs := rest } t hreset h

end Sys2Proof.Machine
end

/-! ## The invariants (R21, R30) -/

section
namespace Sys2Proof.Machine

/-- An empty buffer fits below every `BUF_CAP`. -/
@[simp] theorem overflows_zero (bufCap : Option Nat) : overflows bufCap 0 = false := by
  cases bufCap <;> rfl

/-- The encoder's reset state has the invariant (R126). -/
theorem encReset_inv (c : EncConfig) (h : c.Valid) : (EncState.reset c).Inv where
  valid := h
  last_length := List.length_replicate
  first_iff := iff_of_true rfl rfl
  run_le := Nat.zero_le _
  run_first _ := rfl
  len_ge := by simp
  len_le := Nat.zero_le _
  len_cap := overflows_zero c.bufCap
  buf_dense := rfl

/-- The decoder's reset state has the invariant (R127). -/
theorem decReset_inv (c : DecConfig) (h : c.Valid) : (DecState.reset c).Inv where
  valid := h
  last_length := List.length_replicate
  valid_length := List.length_replicate
  acc_length := List.length_replicate
  cur_lt := h.1
  fault_code := List.mem_cons_self
  cur_rest _ _ := rfl
  active_fault := nofun
  active_inv := nofun

/-- The refresh counter stays within the interval: it goes on only where no refresh is due (R18, R59 step 5). -/
theorem nextRun_le (e : EncState) (h : e.run ≤ e.cfg.r) : nextRun e ≤ e.cfg.r := by
  unfold nextRun
  split
  · exact Nat.zero_le _
  · rename_i hforced
    split
    · rename_i hr
      have hdue : e.run ≠ e.cfg.r := fun hrun => hforced (by simp [forcedRaw, hr, hrun])
      omega
    · exact Nat.zero_le _

/-- An encoder's answer is no part of its invariant. -/
theorem EncState.Inv.answer {e : EncState} (h : e.Inv) (r : Option Response) : EncState.Inv { e with rsp := r } :=
  ⟨h.valid, h.last_length, h.first_iff, h.run_le, h.run_first, h.len_ge, h.len_le, h.len_cap, h.buf_dense⟩

/-- `BUF` and `BUF_LEN` after a row (R59 step 5): one string of writes at `BUF_LEN`. -/
theorem acceptRow_buffer (row : List Word) (forms : List (List Byte)) (e : EncState) :
    (e.acceptRow row forms).buf = e.buf.writeBytes e.bufLen forms.flatten ∧
      (e.acceptRow row forms).bufLen = e.bufLen + formsLength forms := by
  rw [acceptRow_buf, acceptRow_bufLen, appendForms_eq]
  exact ⟨rfl, rfl⟩

/-- A row that is accepted keeps the invariant: it takes between N and 4N bytes, which fit (R21, R59, R71). -/
theorem acceptRow_inv (e : EncState) (row : List Word) (h : e.Inv) (hrow : row.length = e.cfg.n)
    (hfit : overflows e.cfg.bufCap (e.bufLen + formsLength (rowForms e row)) = false) :
    (e.acceptRow row (rowForms e row)).Inv := by
  obtain ⟨hbuf, hlen⟩ := acceptRow_buffer row (rowForms e row) e
  obtain ⟨hlow, hhigh⟩ := formsLength_rowForms e row h.last_length hrow
  constructor
  case valid => exact h.valid
  case last_length => simpa using hrow
  case first_iff => simp
  case run_le => exact nextRun_le e h.run_le
  case run_first => simp
  case len_ge =>
    have := h.len_ge
    rw [hlen, acceptRow_cfg, acceptRow_rows, Nat.mul_succ]
    omega
  case len_le =>
    have := h.len_le
    rw [hlen, acceptRow_cfg, acceptRow_rows, Nat.mul_succ]
    omega
  case len_cap => rwa [hlen]
  case buf_dense =>
    rw [hbuf, hlen]
    exact Memory.dense_writeBytes _ _ _ h.buf_dense

/-- Whatever a step does to an encoder keeps its invariant (R21). -/
theorem EncChange.inv {P : Prop} {e e' : EncState} (hc : EncChange P e e') (h : e.Inv) : e'.Inv := by
  cases hc with
  | answers r => exact h.answer r
  | resets _ r => exact (encReset_inv e.cfg h.valid).answer r
  | accepts row r _ hrow hfit => exact (acceptRow_inv e row h hrow hfit).answer r

/-- A sticky status has one of the three codes `D_FAULT` can hold besides 0 (R30, R106). -/
theorem sticky_code (st : Status) (h : sticky st = true) :
    statusCode st ≠ 0 ∧ statusCode st ∈ [statusCode .ok, statusCode .truncatedStream,
      statusCode .decodedOutOfRange, statusCode .noReference] := by
  cases st with
  | truncatedStream | decodedOutOfRange | noReference => decide
  | ok | valueOutOfRange | metricUndefined | bufferOverflow | refused => cases h

/-- The operation in progress after a value keeps its invariant: a row that is complete has N words (R84). -/
theorem advance_inv {n : Nat} {a : Decoding} (h : Decoding.Inv n a) (len cur : Nat) (acc : Row)
    (hlen : a.pos + len ≤ a.len) (hacc : acc.length = n) : Decoding.Inv n (a.advance len cur acc) where
  chunk_dense := h.chunk_dense
  pos_le := hlen
  row_length r hr := by
    rw [advance_rows] at hr
    split at hr
    · rcases List.mem_append.1 hr with hr | hr
      · exact h.row_length r hr
      · rwa [List.mem_singleton.1 hr]
    · exact h.row_length r hr

/-- A commit keeps the invariant (R84). -/
theorem commit_inv {d : DecState} {a : Decoding} (h : d.Inv) (v : Value) (len : Nat) (ha : d.active = some a)
    (hlen : a.pos + len ≤ a.len) :
    DecState.Inv { d.committed v with
      active := some (a.advance len (d.committed v).cur (d.committed v).rowAcc) } where
  valid := h.valid
  last_length := by simpa [DecState.committed] using h.last_length
  valid_length := by simpa [DecState.committed] using h.valid_length
  acc_length := by simpa [DecState.committed] using h.acc_length
  cur_lt := Nat.mod_lt _ h.valid.1
  fault_code := h.fault_code
  cur_rest := nofun
  active_fault _ _ := h.active_fault a ha
  active_inv b hb := by
    obtain rfl := Option.some.inj hb
    exact advance_inv (h.active_inv a ha) len _ _ hlen (by simpa [DecState.committed] using h.acc_length)

/-- Whatever a step does to a decoder keeps its invariant (R30). -/
theorem DecChange.inv {Q : Prop} {d d' : DecState} (hc : DecChange Q d d') (h : d.Inv) : d'.Inv := by
  have ⟨hvalid, hlast, hrefs, hacc, hcur, hcode, hrest, hactive, hrun⟩ := h
  cases hc with
  | answers r => exact ⟨hvalid, hlast, hrefs, hacc, hcur, hcode, hrest, hactive, hrun⟩
  | resets _ => exact decReset_inv d.cfg hvalid
  | begins chunk hfault =>
    refine ⟨hvalid, hlast, hrefs, hacc, hcur, hcode, nofun, fun _ _ => hfault, fun a ha => ?_⟩
    obtain rfl := Option.some.inj ha
    exact ⟨Memory.dense_ofBytes chunk, Nat.zero_le _, nofun⟩
  | commits a v len ha hlen => exact commit_inv h v len ha hlen
  | finishes a r _ hboundary => exact ⟨hvalid, hlast, hrefs, hacc, hcur, hcode, fun _ _ => hboundary, nofun, nofun⟩
  | latches a st r _ hst =>
    obtain ⟨hne, hmem⟩ := sticky_code st hst
    exact ⟨hvalid, hlast, hrefs, hacc, hcur, hmem, fun _ h0 => absurd h0 hne, nofun, nofun⟩

/-- Settles O36: each way a step can change a block keeps the block's invariant. -/
theorem stepKeepsTheInvariant : Obligations.StepKeepsTheInvariant := by
  intro s t hs h
  obtain ⟨henc, hdec⟩ := step_changes s t h
  exact ⟨henc.inv hs.enc, hdec.inv hs.dec⟩

end Sys2Proof.Machine
end

/-! ## What stays until a reset (R20, R28, R118) -/

section
namespace Sys2Proof.Machine

/-- A byte below `BUF_LEN` before and after a step reads the same (R20, R41 (a)): a row writes from `BUF_LEN` on. -/
theorem EncChange.read_buf {P : Prop} {e e' : EncState} (hc : EncChange P e e') (i : Nat) (hi : i < e.bufLen)
    (hi' : i < e'.bufLen) : e'.buf.read i = e.buf.read i := by
  cases hc with
  | answers r => rfl
  | resets _ r => cases hi'
  | accepts row r _ _ _ =>
    obtain ⟨hbuf, -⟩ := acceptRow_buffer row (rowForms e row) e
    dsimp only
    rw [hbuf, Memory.read_writeBytes, if_neg (by omega)]

/-- A buffer that got shorter is empty, and `P` says why (R20). -/
theorem EncChange.empty_of_shorter {P : Prop} {e e' : EncState} (hc : EncChange P e e') (h : e'.bufLen < e.bufLen) :
    e'.bufLen = 0 ∧ e'.buf = [] ∧ P := by
  cases hc with
  | answers r => exact absurd h (Nat.lt_irrefl _)
  | resets why r => exact ⟨rfl, rfl, why⟩
  | accepts row r _ _ _ =>
    obtain ⟨-, hlen⟩ := acceptRow_buffer row (rowForms e row) e
    dsimp only at h
    omega

/-- Settles O23: a row is written from `BUF_LEN` on, and only the encoder's reset empties the buffer. -/
theorem bufferIsAppendOnly : Obligations.BufferIsAppendOnly := by
  intro s t _ h
  obtain ⟨henc, -⟩ := step_changes s t h
  exact ⟨henc.read_buf, henc.empty_of_shorter⟩

/-- With a fault latched no operation runs, so a step without the reset pin only answers (R28, R118). -/
theorem DecChange.eq_of_fault {Q : Prop} {d d' : DecState} (hc : DecChange Q d d') (h : d.Inv) (hpin : ¬Q)
    (hfault : d.fault ≠ 0) : d' = { d with rsp := d'.rsp } := by
  cases hc with
  | answers r => rfl
  | resets why => exact absurd why hpin
  | begins chunk hok => exact absurd hok hfault
  | commits a v len ha _ => exact absurd (h.active_fault a ha) hfault
  | finishes a r ha _ => exact absurd (h.active_fault a ha) hfault
  | latches a st r ha _ => exact absurd (h.active_fault a ha) hfault

/-- A commit makes its column's reference valid and no other invalid (R84). -/
theorem hasReference_committed (d : DecState) (v : Value) (c : Nat) (h : hasReference d c = true) :
    hasReference (d.committed v) c = true := by
  simp only [hasReference, DecState.committed, List.getD_eq_getElem?_getD] at h ⊢
  rw [List.getElem?_set]
  split
  · rename_i hc
    split
    · rfl
    · rename_i hlen
      rw [← hc, List.getElem?_eq_none (Nat.le_of_not_lt hlen)] at h
      exact h
  · exact h

/-- Without the reset pin a valid reference stays valid (R30 item 3). -/
theorem DecChange.hasReference_of {Q : Prop} {d d' : DecState} (hc : DecChange Q d d') (hpin : ¬Q) (c : Nat)
    (h : hasReference d c = true) : hasReference d' c = true := by
  cases hc with
  | resets why => exact absurd why hpin
  | commits a v _ _ _ => exact hasReference_committed d v c h
  | answers | begins | finishes | latches => exact h

/-- Settles O45: a latched fault excludes a running operation, and no change but the reset pin's clears a reference. -/
theorem faultAndReferencesStayUntilReset : Obligations.FaultAndReferencesStayUntilReset := by
  intro s t hinv h hpin
  obtain ⟨-, hdec⟩ := step_changes s t h
  exact ⟨hdec.eq_of_fault hinv hpin, hdec.hasReference_of hpin⟩

end Sys2Proof.Machine
end

/-! ## The end of the chunk (R29, R85) -/

section
namespace Sys2Proof.Machine

/-- With nothing presented, a running `DECOMPRESS` takes its turn (R73). -/
theorem step_of_running (s : State) (a : Decoding) (hin : s.inputs = []) (ha : s.dec.active = some a) :
    step s = (fetchForm a s).run := by
  rw [step_eq_run]
  simp only [fetch, hin, fetchDecoder, ha]

/-- Where the bytes have run out, that turn is the end of the chunk. -/
theorem step_at_end (s : State) (a : Decoding) (hin : s.inputs = []) (ha : s.dec.active = some a)
    (hend : a.len ≤ a.pos) : step s = .next (s.endOfChunk a) := by
  rw [step_of_running s a hin ha, fetchForm, if_pos hend]
  rfl

/-- Settles O31: the step is `State.endOfChunk`, whose two cases are those of the cursor. -/
theorem endOfChunkFinishesOrTruncates : Obligations.EndOfChunkFinishesOrTruncates := by
  intro s a hin ha hpos
  have hstep := step_at_end s a hin ha hpos.ge
  obtain ⟨hcur, hx⟩ | ⟨hcur, hx⟩ := endOfChunk_cases s a
  all_goals rw [hx] at hstep
  · exact ⟨fun hne => absurd hcur hne, fun _ => ⟨_, hstep, rfl⟩⟩
  · refine ⟨fun _ => ⟨_, hstep, ?_⟩, fun h0 => absurd h0 hcur⟩
    rw [truncated_eq s a ha, hpos]
    rfl

end Sys2Proof.Machine
end

/-! # Proofs: the memory of the encoder (spec/20_memory.md)

How many bytes a row appends to `BUF`. The lengths of its forms are those of the levels of its variant, or 4. -/

/-! ## A row that is accepted (R59, R60, R71) -/

section
namespace Sys2Proof.Machine

/-- No column is reported exactly where every value is below 2^31 (R60). -/
theorem outOfRangeFrom_eq_none (c : Nat) (row : List Word) :
    outOfRangeFrom c row = none ↔ ∀ w ∈ row, w.toNat < 2 ^ 31 := by
  induction row generalizing c with
  | nil => simp [outOfRangeFrom]
  | cons w ws ih =>
    rw [outOfRangeFrom, List.forall_mem_cons]
    split
    · rename_i hbad
      exact iff_of_false nofun fun hok => absurd hbad (Nat.not_le.2 hok.1)
    · rename_i hok
      rw [ih, and_iff_right (Nat.not_le.1 hok)]

/-- Nothing overflows a buffer without a bound (R71). -/
@[simp] theorem overflows_none (len : Nat) : overflows none len = false := rfl

/-- `WRITE_ROW` of values in range that fit answers `OK` and appends the forms (R59 step 5). -/
theorem exec_writeRow_of_fits (row : List Word) (s : State) (hrow : ∀ w ∈ row, w.toNat < 2 ^ 31)
    (hfit : overflows s.enc.cfg.bufCap (s.enc.bufLen + formsLength (rowForms s.enc row)) = false) :
    exec (.writeRow row) s = .next (State.respond .encoder .ok .nothing []
      { s with enc := s.enc.acceptRow row (rowForms s.enc row) }) := by
  have hok : firstOutOfRange row = none := (outOfRangeFrom_eq_none 0 row).2 hrow
  change execWriteRow row s = _
  obtain ⟨c, hbad, -⟩ | ⟨-, hfull, -⟩ | ⟨-, -, hx⟩ := execWriteRow_cases row s
  · cases hok.symm.trans hbad
  · cases hfit.symm.trans hfull
  · exact hx

/-- With `BUF_CAP = ∞` a row of values in range grows `BUF_LEN` by the length of its forms (R59 step 5, R71). -/
theorem exec_writeRow_unbounded (row : List Word) (s : State) (hrow : ∀ w ∈ row, w.toNat < 2 ^ 31)
    (hcap : s.enc.cfg.bufCap = none) :
    ∃ t, exec (.writeRow row) s = .next t ∧ t.enc.bufLen = s.enc.bufLen + formsLength (rowForms s.enc row) := by
  refine ⟨_, exec_writeRow_of_fits row s hrow (by rw [hcap, overflows_none]), ?_⟩
  obtain ⟨-, hlen⟩ := acceptRow_buffer row (rowForms s.enc row) s.enc
  rw [respond_encoder_bufLen, hlen]

end Sys2Proof.Machine
end

/-! ## The bytes of a row in each variant (R38, R72 item 6) -/

section
namespace Sys2Proof.Machine

/-- The level that is selected is one of the variant's (R63). -/
theorem mem_levels_of_levelFor (v : Variant) (off bytes : Nat) (h : levelFor v off = some bytes) :
    ∃ l ∈ levels v, l.1 = bytes := by
  obtain ⟨l, hfind, hl⟩ := Option.map_eq_some_iff.1 h
  exact ⟨l, List.mem_of_find?_eq_some hfind, hl⟩

/-- An encoded value is raw or has the byte count of a level of its variant (R63). -/
theorem length_encodeDelta_cases (v : Variant) (last new : Nat) :
    (encodeDelta v last new).length = 4 ∨ ∃ l ∈ levels v, (encodeDelta v last new).length = l.1 := by
  unfold encodeDelta
  split
  · exact .inl (length_emitRaw new)
  · rename_i bytes hlevel
    obtain ⟨l, hl, rfl⟩ := mem_levels_of_levelFor v _ bytes hlevel
    cases hf : emitDelta v l.1 (signBit last new) (offset last new) with
    | none => exact .inl (length_emitRaw new)
    | some f => exact .inr ⟨l, hl, (length_of_emitDelta v l.1 _ _ f hf).1⟩

/-- Each form of a row is raw or has the byte count of a level of its variant, whether or not the row is forced raw
(R59 step 3, R63). -/
theorem length_of_mem_rowForms_cases (e : EncState) (row : List Word) (f : List Byte) (hf : f ∈ rowForms e row) :
    f.length = 4 ∨ ∃ l ∈ levels e.cfg.variant, f.length = l.1 := by
  unfold rowForms at hf
  split at hf
  · obtain ⟨w, -, rfl⟩ := List.mem_map.1 hf
    exact .inl (length_emitRaw _)
  · rw [← List.map_uncurry_zip_eq_zipWith] at hf
    obtain ⟨p, -, rfl⟩ := List.mem_map.1 hf
    exact length_encodeDelta_cases ..

/-- Where no level of the variant is shorter than `k` bytes, and `k` is at most the 4 of a raw form, a row takes at
least `k` bytes for each of its columns. -/
theorem mul_le_formsLength_rowForms (e : EncState) (row : List Word) (k : Nat) (hlast : e.last.length = e.cfg.n)
    (hrow : row.length = e.cfg.n) (hraw : k ≤ 4) (hlevels : ∀ l ∈ levels e.cfg.variant, k ≤ l.1) :
    k * e.cfg.n ≤ formsLength (rowForms e row) := by
  have hform : ∀ f ∈ rowForms e row, k ≤ f.length := by
    intro f hf
    obtain hlen | ⟨l, hl, hlen⟩ := length_of_mem_rowForms_cases e row f hf
    · exact hlen ▸ hraw
    · exact hlen ▸ hlevels l hl
  calc k * e.cfg.n = ((rowForms e row).map List.length).length • k := by
        rw [List.length_map, length_rowForms e row hlast hrow, smul_eq_mul, Nat.mul_comm]
    _ ≤ ((rowForms e row).map List.length).sum := List.card_nsmul_le_sum _ k (List.forall_mem_map.2 hform)
    _ = formsLength (rowForms e row) := List.length_flatten.symm

/-- Settles O18: `BUF_LEN` grows by the length of the row's forms, and no form is shorter than the shortest level of the
variant. -/
theorem rowLengthBounds : Obligations.RowLengthBounds := by
  rintro s row hlast ⟨hcount, hrange⟩ hcap
  obtain ⟨t, hx, hlen⟩ := exec_writeRow_unbounded row s hrange hcap
  obtain ⟨hlow, hhigh⟩ := formsLength_rowForms s.enc row hlast hcount
  have hlevel (k : Nat) := mul_le_formsLength_rowForms s.enc row k hlast hcount
  refine ⟨t, hx, ?_, ?_, fun hv => ?_, fun hv => ?_⟩
  all_goals rw [hlen]; refine Nat.add_le_add_left ?_ _
  · exact hhigh
  · exact hlow
  · exact hlevel 3 (by decide) (by rw [hv]; decide)
  · exact hlevel 2 (by decide) (by rw [hv]; decide)

end Sys2Proof.Machine
end

/-! # Proofs: the encoding of a value (spec/30_encoding.md)

R52 reads a form as a number: its word is `flags × 2^(8L-F) + payload`. The encoder's layouts, the decoder's fields, the
emission rules and `Classify` are each tied to that number; encoding and decoding meet in it. -/

/-! ## The lead byte (R53, R54) -/

section
namespace Sys2Proof.Machine

/-- A bit of a byte, by the number the byte is (R8). -/
theorem getLsbD_byte (b : Byte) (k : Nat) : b.getLsbD k = decide (b.toNat / 2 ^ k % 2 = 1) := by
  rw [BitVec.getLsbD, Nat.testBit_eq_decide_div_mod_eq]

/-- The marker of a delta form (R44). -/
theorem marker_eq (b : Byte) : b.getLsbD 7 = decide (128 ≤ b.toNat) := by
  rw [getLsbD_byte, decide_eq_decide]
  have := b.isLt
  omega

theorem bitNat_signOf (b : Byte) : bitNat (signOf b) = b.toNat / 2 ^ 6 % 2 := by
  rw [signOf, getLsbD_byte, bitNat, ite_eq_iff, decide_eq_true_iff]
  omega

theorem classify_v1 (b : Byte) : classify .v1 b = if b.toNat < 128 then .raw else .v1d3 := by
  simp only [classify, marker_eq, decide_eq_false_iff_not, not_le]

theorem classify_v2 (b : Byte) : classify .v2 b =
    if b.toNat < 128 then .raw else if b.toNat / 2 ^ 5 % 2 = 1 then .v2d3 else .v2d2 := by
  simp only [classify, marker_eq, getLsbD_byte b 5, decide_eq_false_iff_not, not_le, ite_not]

theorem classify_v3 (b : Byte) : classify .v3 b =
    if b.toNat < 128 then .raw
    else if b.toNat / 2 ^ 5 % 2 = 1 then if b.toNat / 2 ^ 4 % 2 = 1 then .v3d3 else .v3d2
    else .v3d1 := by
  simp only [classify, marker_eq, getLsbD_byte b 5, getLsbD_byte b 4, decide_eq_false_iff_not, not_le, ite_not]

/-- A lead byte below 0x80 announces a raw form, in every variant (R53). -/
theorem classify_eq_raw_iff (v : Variant) (b : Byte) : classify v b = .raw ↔ b.toNat < 128 := by
  cases v <;> simp only [classify_v1, classify_v2, classify_v3] <;> split_ifs <;> simp only [*]

/-- Settles O4: each range of the table fixes the marker and the selector bits, and bit 6 is the sign. -/
theorem leadByteRanges : Obligations.LeadByteRanges := by
  refine ⟨fun b => ?_, rfl, rfl, rfl, rfl, rfl, rfl, rfl⟩
  have hb := b.isLt
  refine ⟨fun h => ⟨?_, ?_, ?_⟩, fun h => ?_, fun h => ⟨?_, ?_⟩, fun h => ?_, fun h => ?_, fun h => ?_, fun h => ?_⟩
  · rw [classify_v1, if_pos (by omega)]
  · rw [classify_v2, if_pos (by omega)]
  · rw [classify_v3, if_pos (by omega)]
  · rw [classify_v1, if_neg (by omega)]
  · rw [classify_v2, if_neg (by omega), if_neg (by omega)]
  · rw [classify_v3, if_neg (by omega), if_neg (by omega)]
  · rw [classify_v2, if_neg (by omega), if_pos (by omega)]
  · rw [classify_v3, if_neg (by omega), if_pos (by omega), if_neg (by omega)]
  · rw [classify_v3, if_neg (by omega), if_pos (by omega), if_pos (by omega)]
  · rw [signOf, getLsbD_byte, decide_eq_true_iff]
    omega

end Sys2Proof.Machine
end

/-! ## A form as flags and payload (R44, R52) -/

section
namespace Sys2Proof.Machine

/-- The number of flag bits of a form, F in R52: the marker of `RAW`; marker, sign and selector of a delta form. -/
def flagBits : Form → Nat
  | .raw => 1
  | .v1d3 => 2
  | .v2d2 => 3
  | .v2d3 => 3
  | .v3d1 => 3
  | .v3d2 => 4
  | .v3d3 => 4

/-- The flag bits of a form with sign `s` as a number (R45 to R51). -/
def flags (s : Bool) : Form → Nat
  | .raw => 0
  | .v1d3 => 2 + bitNat s
  | .v2d2 => (2 + bitNat s) * 2
  | .v2d3 => (2 + bitNat s) * 2 + 1
  | .v3d1 => (2 + bitNat s) * 2
  | .v3d2 => (2 + bitNat s) * 4 + 2
  | .v3d3 => (2 + bitNat s) * 4 + 3

/-- The instruction of a form with sign `s` (of which `RAW` has none) and the low bits of `p` as its payload (R52). -/
def formInstr (s : Bool) (p : Nat) : Form → Instr
  | .raw => .raw (BitVec.ofNat 31 p)
  | .v1d3 => .v1d3 s (BitVec.ofNat 22 p)
  | .v2d2 => .v2d2 s (BitVec.ofNat 13 p)
  | .v2d3 => .v2d3 s (BitVec.ofNat 21 p)
  | .v3d1 => .v3d1 s (BitVec.ofNat 5 p)
  | .v3d2 => .v3d2 s (BitVec.ofNat 12 p)
  | .v3d3 => .v3d3 s (BitVec.ofNat 20 p)

/-- The flag bits lie in the lead byte. -/
theorem flagBits_le (f : Form) : flagBits f ≤ 8 := by
  cases f <;> decide

/-- Flag bits and payload bits fill the bytes of a form (R52). -/
theorem flagBits_add_payloadBits (f : Form) : flagBits f + payloadBits f = 8 * formLength f := by
  cases f <;> rfl

theorem flags_lt (s : Bool) (f : Form) : flags s f < 2 ^ flagBits f := by
  cases f <;> cases s <;> decide

/-- Every wire form is an instruction of a sign and a payload. -/
theorem exists_formInstr (i : Instr) (f : Form) (h : formOf i = some f) : ∃ s p, i = formInstr s p f := by
  cases i <;> cases h
  case raw v => exact ⟨false, v.toNat, by rw [formInstr, BitVec.ofNat_toNat, BitVec.setWidth_eq]⟩
  all_goals
    rename_i s m
    exact ⟨s, m.toNat, by rw [formInstr, BitVec.ofNat_toNat, BitVec.setWidth_eq]⟩

/-- Only the payload bits of the number count. -/
theorem formInstr_mod (s : Bool) (p : Nat) (f : Form) : formInstr s (p % 2 ^ payloadBits f) f = formInstr s p f := by
  cases f <;> simp [formInstr, payloadBits, ← BitVec.toNat_inj]

/-- A form that a lead byte announces in a variant belongs to that variant (R46 to R51, R53). -/
theorem wellFormed_formInstr_classify (v : Variant) (n : Nat) (b : Byte) (s : Bool) (p : Nat) :
    WellFormed v n (formInstr s p (classify v b)) = true := by
  cases v <;> simp only [classify_v1, classify_v2, classify_v3] <;> split_ifs <;> rfl

/-- In a variant a form belongs to, a lead byte announces it exactly when its flag bits are those of the form (R53). -/
theorem classify_eq_iff (v : Variant) (n : Nat) (b : Byte) (s : Bool) (p : Nat) (f : Form)
    (hwf : WellFormed v n (formInstr s p f) = true) :
    classify v b = f ↔ b.toNat / 2 ^ (8 - flagBits f) = flags (signOf b) f := by
  have hb := b.isLt
  cases f
  case raw =>
    rw [classify_eq_raw_iff, flagBits, flags]
    omega
  all_goals
    cases eq_of_beq hwf
    simp only [classify_v1, classify_v2, classify_v3, flags, bitNat_signOf, flagBits]
    split_ifs <;> simp only [true_iff, false_iff] <;> omega

/-- The flags of a form fix bit 6 of its lead byte, except for `RAW`, where that bit belongs to the value (R45). -/
theorem signOf_of_flags (b : Byte) (s : Bool) (f : Form) (h : b.toNat / 2 ^ (8 - flagBits f) = flags s f) :
    f = .raw ∨ signOf b = s := by
  have hs : bitNat s ≤ 1 := by cases s <;> decide
  have hinj : Function.Injective bitNat := by decide
  cases f
  case raw => exact .inl rfl
  all_goals
    refine .inr (hinj ?_)
    rw [bitNat_signOf]
    simp only [flagBits, flags] at h
    omega

/-- So a lead byte that has the flags of a form gives its sign to the decoder. -/
theorem formInstr_signOf (b : Byte) (s : Bool) (f : Form) (h : b.toNat / 2 ^ (8 - flagBits f) = flags s f) :
    flags (signOf b) f = flags s f ∧ ∀ p, formInstr (signOf b) p f = formInstr s p f := by
  obtain rfl | hs := signOf_of_flags b s f h
  · exact ⟨rfl, fun _ => rfl⟩
  · rw [hs]
    exact ⟨rfl, fun _ => rfl⟩

/-- The flag bits of the lead byte are those of the number the bytes of a form spell (R52). -/
theorem leadByte_div_eq_ube_div (f : Form) (b : Byte) (rest : List Byte) (hl : rest.length + 1 = formLength f) :
    b.toNat / 2 ^ (8 - flagBits f) = ube (b :: rest) / 2 ^ payloadBits f := by
  have hbits : payloadBits f = 8 * rest.length + (8 - flagBits f) := by
    have := flagBits_add_payloadBits f
    have := flagBits_le f
    omega
  rw [← ube_cons_div b rest, Nat.div_div_eq_div_mul, hbits, Nat.pow_add, Nat.pow_mul]

end Sys2Proof.Machine
end

/-! ## The layouts as words (R45 to R51, R64 to R70) -/

section
namespace Sys2Proof.Machine

/-- A field of a word is a quotient of its number (R36). -/
theorem extractLsb'_eq_ofNat {w : Nat} (x : BitVec w) (k n : Nat) :
    x.extractLsb' k n = BitVec.ofNat n (x.toNat / 2 ^ k) := by
  rw [BitVec.extractLsb', Nat.shiftRight_eq_div_pow]

theorem singleton_eq_be (w : BitVec 8) : [w] = be w.toNat 1 := by
  simp [be]

theorem bytes16_eq_be (w : BitVec 16) : bytes16 w = be w.toNat 2 := by
  simp [bytes16, be, extractLsb'_eq_ofNat]

theorem bytes24_eq_be (w : BitVec 24) : bytes24 w = be w.toNat 3 := by
  simp [bytes24, be, extractLsb'_eq_ofNat]

theorem bytes32_eq_be (w : BitVec 32) : bytes32 w = be w.toNat 4 := by
  simp [bytes32, be, extractLsb'_eq_ofNat]

theorem toNat_marked (f : Nat) {k : Nat} (s : Bool) (selector : BitVec k) (h : 2 + k ≤ f) :
    (marked f s selector).toNat = (2 + bitNat s) * 2 ^ k + selector.toNat := by
  have hsign : (cat 2 1#1 (BitVec.ofBool s)).toNat = 2 + bitNat s := by
    rw [toNat_cat _ _ _ (by decide)]
    cases s <;> rfl
  rw [marked, toNat_cat _ _ _ h, hsign]

/-- Encoding emits the word `flags × 2^(8L-F) + payload` as its `BE` (R52). -/
theorem encode_formInstr (s : Bool) (p : Nat) (f : Form) :
    encode (formInstr s p f) = .form (be (flags s f * 2 ^ payloadBits f + p % 2 ^ payloadBits f) (formLength f)) := by
  cases f <;>
    simp [formInstr, encode, bytes16_eq_be, bytes24_eq_be, bytes32_eq_be, singleton_eq_be, toNat_cat, toNat_marked,
      flags, payloadBits, formLength]

/-- Settles O8: layout and emission rule are the `BE` of the same number. -/
theorem emissionIsTheEncoding : Obligations.EmissionIsTheEncoding := by
  refine ⟨fun v => ?_, fun s m => ?_, fun s m => ?_, fun s m => ?_, fun s m => ?_, fun s m => ?_, fun s m => ?_⟩
  all_goals
    rw [encode]
    congr 1
    simp only [bytes16_eq_be, bytes24_eq_be, bytes32_eq_be, singleton_eq_be, toNat_cat, toNat_marked, Nat.reduceAdd,
      le_refl, BitVec.reduceToNat, emitRaw, emitV1d3, emitV2d2, emitV2d3, emitV3d1, emitV3d2, emitV3d3]
    congr 1
    ring

end Sys2Proof.Machine
end

/-! ## The decoded fields as low bits (R52, R76 to R82) -/

section
namespace Sys2Proof.Machine

theorem ube_concat (bs : List Byte) (b : Byte) : ube (bs ++ [b]) = ube bs * 256 + b.toNat := by
  induction bs with
  | nil => simp [ube]
  | cons c bs ih =>
    rw [List.cons_append, ube, ube, ih, List.length_append, List.length_singleton]
    ring

/-- The low bits of the lead byte start the payload (R52). -/
theorem extractLsb'_zero_eq_lowBits (b : Byte) (m : Nat) : b.extractLsb' 0 m = BitVec.ofNat m (ube [b]) := by
  simp [extractLsb'_eq_ofNat, ube]

/-- A byte after the low bits of a byte string's number: the low bits of the longer string's (R52). -/
theorem cat_lowBits (w m : Nat) (bs : List Byte) (b : Byte) (h : m + 8 = w) :
    cat w (BitVec.ofNat m (ube bs)) b = BitVec.ofNat w (ube (bs ++ [b])) := by
  have hdiv : (ube bs * 256 + b.toNat) / 256 = ube bs := by have := b.isLt; omega
  have hmod : (ube bs * 256 + b.toNat) % 256 = b.toNat := by have := b.isLt; omega
  have hw : 2 ^ w = 256 * 2 ^ m := by rw [← h, Nat.pow_add, Nat.mul_comm]
  apply BitVec.eq_of_toNat_eq
  rw [toNat_cat _ _ _ h.le, BitVec.toNat_ofNat, BitVec.toNat_ofNat, ube_concat, hw, Nat.mod_mul, hdiv, hmod]
  ring

/-- What a form decodes to: bit 6 of the lead byte as its sign, and as its payload the low bits of the number its bytes
spell (R52). -/
theorem decodeAs_ok (f : Form) (b : Byte) (rest : List Byte) (i : Instr) (h : decodeAs f b rest = .ok i) :
    i = formInstr (signOf b) (ube ((b :: rest).take (formLength f))) f := by
  unfold decodeAs at h
  split at h <;> cases h <;> simp only [cat2, extractLsb'_zero_eq_lowBits, cat_lowBits] <;> rfl

/-- Settles O7: the bytes are exactly the form's, so its payload is the low bits of their number. -/
theorem payloadIsTheLowBitsOfTheBytes : Obligations.PayloadIsTheLowBitsOfTheBytes := by
  rintro v b rest i u hdec hl rfl
  have hi := decodeAs_ok (classify v b) b rest i hdec
  rw [← hl, ← List.length_cons, List.take_length] at hi
  subst hi
  cases classify v b <;> simp [formInstr, signOf]

end Sys2Proof.Machine
end

/-! ## Decoding and encoding are inverse (R52, R53, R89) -/

section
namespace Sys2Proof.Machine

/-- The bytes of a form whose lead byte has its flags are its encoding: their number is put together again from its
quotient, the flags, and its remainder, the payload (R52). -/
theorem encode_formInstr_ube (s : Bool) (f : Form) (b : Byte) (rest : List Byte) (hl : rest.length + 1 = formLength f)
    (hlead : b.toNat / 2 ^ (8 - flagBits f) = flags s f) :
    encode (formInstr s (ube (b :: rest)) f) = .form (b :: rest) := by
  rw [encode_formInstr, ← hlead, leadByte_div_eq_ube_div f b rest hl, Nat.div_add_mod', ← hl, ← List.length_cons,
    be_ube]

/-- A form that decodes belongs to the variant, and the bytes announced are its encoding (R52, R53). -/
theorem encode_of_decodeAs (v : Variant) (n : Nat) (b : Byte) (rest : List Byte) (i : Instr)
    (hlen : formLength (classify v b) ≤ rest.length + 1) (h : decodeAs (classify v b) b rest = .ok i) :
    WellFormed v n i = true ∧ encode i = .form ((b :: rest).take (formLength (classify v b))) := by
  cases decodeAs_ok _ b rest i h
  have hwf := wellFormed_formInstr_classify v n b (signOf b) (ube ((b :: rest).take (formLength (classify v b))))
  refine ⟨hwf, ?_⟩
  obtain ⟨k, hk⟩ := Nat.exists_eq_succ_of_ne_zero (formLength_pos (classify v b)).ne'
  have hl : (rest.take k).length + 1 = formLength (classify v b) := by
    rw [List.length_take, hk]
    omega
  rw [hk, List.take_succ_cons]
  exact encode_formInstr_ube _ _ b _ hl ((classify_eq_iff v n b _ _ _ hwf).1 rfl)

/-- Settles O3: the bytes announced are there or not, and by that the form decodes or is truncated. -/
theorem decodedFormReencodesToItsBytes : Obligations.DecodedFormReencodesToItsBytes := by
  intro v n b rest
  obtain ⟨hlen, i, hi, -⟩ | ⟨hlen, herr⟩ := decodeAs_cases (classify v b) b rest
  · exact ⟨fun _ => ⟨i, hi, encode_of_decodeAs v n b rest i hlen hi⟩, fun h => absurd h (Nat.not_lt.2 hlen)⟩
  · exact ⟨fun h => absurd hlen (Nat.not_lt.2 h), fun _ => herr⟩

/-- The number of a form's word fits its bytes, has the flags as its quotient and the payload as its remainder (R52). -/
theorem ube_be_word (s : Bool) (p : Nat) (f : Form) :
    ube (be (flags s f * 2 ^ payloadBits f + p % 2 ^ payloadBits f) (formLength f)) =
      flags s f * 2 ^ payloadBits f + p % 2 ^ payloadBits f := by
  rw [ube_be, Nat.mod_eq_of_lt]
  calc flags s f * 2 ^ payloadBits f + p % 2 ^ payloadBits f
      < flags s f * 2 ^ payloadBits f + 2 ^ payloadBits f := Nat.add_lt_add_left (Nat.mod_lt _ (by positivity)) _
    _ = (flags s f + 1) * 2 ^ payloadBits f := by ring
    _ ≤ 2 ^ flagBits f * 2 ^ payloadBits f := Nat.mul_le_mul_right _ (flags_lt s f)
    _ = 256 ^ formLength f := by rw [← Nat.pow_add, flagBits_add_payloadBits, Nat.pow_mul]

/-- A form is decoded from its encoding: the lead byte has its flags, so it announces the form again, with its sign
(R53), and the remainder is its payload. -/
theorem decode_encode_formInstr (v : Variant) (n : Nat) (s : Bool) (p : Nat) (f : Form)
    (hwf : WellFormed v n (formInstr s p f) = true) :
    decode v n (encode (formInstr s p f)) = .ok (formInstr s p f) := by
  have hube := ube_be_word s p f
  have hlen := length_be (flags s f * 2 ^ payloadBits f + p % 2 ^ payloadBits f) (formLength f)
  rw [encode_formInstr]
  generalize be _ _ = bs at hube hlen ⊢
  cases bs with
  | nil => exact absurd hlen (formLength_pos f).ne
  | cons b rest =>
    have hlead : b.toNat / 2 ^ (8 - flagBits f) = flags s f := by
      rw [leadByte_div_eq_ube_div f b rest hlen, hube, Nat.mul_comm, Nat.mul_add_div (by positivity),
        Nat.div_eq_of_lt (Nat.mod_lt _ (by positivity)), Nat.add_zero]
    obtain ⟨hflags, hinstr⟩ := formInstr_signOf b s f hlead
    have hc : classify v b = f := (classify_eq_iff v n b s p f hwf).2 (hlead.trans hflags.symm)
    change decodeAs (classify v b) b rest = _
    obtain ⟨-, j, hj, -⟩ | ⟨hshort, -⟩ := decodeAs_cases (classify v b) b rest
    · rw [hj, decodeAs_ok _ b rest j hj, hc, ← hlen, List.take_length, hube, hinstr, ← formInstr_mod s (_ + _),
        Nat.mul_add_mod', Nat.mod_mod, formInstr_mod]
    · exact absurd hlen (hc ▸ hshort).ne
/-- A command's code and operands are read back (R89, R100). -/
theorem decode_encode_command (v : Variant) (n : Nat) (i : Instr) (hf : formOf i = none)
    (hwf : WellFormed v n i = true) : decode v n (encode i) = .ok i := by
  cases i <;> cases hf
  case writeRow row =>
    cases eq_of_beq hwf
    exact congrArg (fun r => Except.ok (Instr.writeRow r)) (unpackRow_packRow row)
  all_goals rfl

/-- Settles O2: a form through its word, a command through its code. -/
theorem decodeInvertsEncode : Obligations.DecodeInvertsEncode := by
  intro v n i hwf
  cases hf : formOf i with
  | none => exact decode_encode_command v n i hf hwf
  | some f =>
    obtain ⟨s, p, rfl⟩ := exists_formInstr i f hf
    exact decode_encode_formInstr v n s p f hwf

end Sys2Proof.Machine
end

/-! # Proofs: the encoder (spec/40_encoder.md)

The level of a value and the bit of its sign (R62 to R70), the row that is written or rejected (R59, R61, R71), and the
phase of the refresh counter. -/

/-! ## The level of an offset (R62, R63) -/

section
namespace Sys2Proof.Machine

/-- The offset of an increase, zero included (R62). -/
theorem offset_of_le {last new : Nat} (h : last ≤ new) : offset last new = new - last := by
  unfold offset
  omega

/-- The offset of a decrease (R62). -/
theorem offset_of_lt {last new : Nat} (h : new < last) : offset last new = last - new := by
  unfold offset
  omega

/-- The levels are tried in their order (R63). -/
theorem find?_level_cons (off : Nat) (l : Nat × Nat) (ls : List (Nat × Nat)) :
    ((l :: ls).find? (fun l => decide (off ≤ cap l.2))).map Prod.fst =
      if off ≤ cap l.2 then some l.1 else (ls.find? (fun l => decide (off ≤ cap l.2))).map Prod.fst := by
  rw [List.find?_cons]
  split
  · rename_i h
    rw [if_pos (of_decide_eq_true h), Option.map_some]
  · rename_i h
    rw [if_neg (of_decide_eq_false h)]

theorem levelFor_v1 (off : Nat) : levelFor .v1 off = if off ≤ 4194303 then some 3 else none := by
  simp only [levelFor, levels, find?_level_cons]
  rfl

theorem levelFor_v2 (off : Nat) :
    levelFor .v2 off = if off ≤ 8191 then some 2 else if off ≤ 2097151 then some 3 else none := by
  simp only [levelFor, levels, find?_level_cons]
  rfl

theorem levelFor_v3 (off : Nat) :
    levelFor .v3 off =
      if off ≤ 31 then some 1 else if off ≤ 4095 then some 2 else if off ≤ 1048575 then some 3 else none := by
  simp only [levelFor, levels, find?_level_cons]
  rfl

/-- The value is raw where no level covers its offset (R63). -/
theorem encodeDelta_of_no_level {v : Variant} {last new : Nat} (h : levelFor v (offset last new) = none) :
    encodeDelta v last new = emitRaw new := by
  rw [encodeDelta, h]

/-- The value has the form of the level that covers its offset (R63). -/
theorem encodeDelta_of_level {v : Variant} {last new bytes : Nat} {f : List Byte}
    (h : levelFor v (offset last new) = some bytes)
    (hf : emitDelta v bytes (signBit last new) (offset last new) = some f) : encodeDelta v last new = f := by
  simp only [encodeDelta, h, hf, Option.getD_some]

theorem encodeDelta_v1 (last new : Nat) :
    encodeDelta .v1 last new =
      if offset last new ≤ 4194303 then emitV1d3 (signBit last new) (offset last new) else emitRaw new := by
  have hlevel := levelFor_v1 (offset last new)
  split_ifs at hlevel ⊢
  · exact encodeDelta_of_level hlevel rfl
  · exact encodeDelta_of_no_level hlevel

theorem encodeDelta_v2 (last new : Nat) :
    encodeDelta .v2 last new =
      if offset last new ≤ 8191 then emitV2d2 (signBit last new) (offset last new)
      else if offset last new ≤ 2097151 then emitV2d3 (signBit last new) (offset last new)
      else emitRaw new := by
  have hlevel := levelFor_v2 (offset last new)
  split_ifs at hlevel ⊢
  · exact encodeDelta_of_level hlevel rfl
  · exact encodeDelta_of_level hlevel rfl
  · exact encodeDelta_of_no_level hlevel

theorem encodeDelta_v3 (last new : Nat) :
    encodeDelta .v3 last new =
      if offset last new ≤ 31 then emitV3d1 (signBit last new) (offset last new)
      else if offset last new ≤ 4095 then emitV3d2 (signBit last new) (offset last new)
      else if offset last new ≤ 1048575 then emitV3d3 (signBit last new) (offset last new)
      else emitRaw new := by
  have hlevel := levelFor_v3 (offset last new)
  split_ifs at hlevel ⊢
  · exact encodeDelta_of_level hlevel rfl
  · exact encodeDelta_of_level hlevel rfl
  · exact encodeDelta_of_level hlevel rfl
  · exact encodeDelta_of_no_level hlevel

/-- Settles O10: sign and offset are those of R62, and the thresholds are the capacities of the variant's levels. -/
theorem encodeDeltaFollowsTheThresholds : Obligations.EncodeDeltaFollowsTheThresholds := by
  intro last new off s _ _ h
  have hsign : signBit last new = s := by
    obtain ⟨hle, rfl, -⟩ | ⟨hlt, rfl, -⟩ := h
    · exact decide_eq_true hle
    · exact decide_eq_false (Nat.not_le.2 hlt)
  have hoff : offset last new = off := by
    obtain ⟨hle, -, rfl⟩ | ⟨hlt, -, rfl⟩ := h
    · exact offset_of_le hle
    · exact offset_of_lt hlt
  subst hsign hoff
  exact ⟨encodeDelta_v1 last new, encodeDelta_v2 last new, encodeDelta_v3 last new⟩

/-- A level of the variant has a form (R44, R63). -/
theorem exists_emitDelta_of_levelFor {v : Variant} {off bytes : Nat} (h : levelFor v off = some bytes) (s : Bool) :
    ∃ f, emitDelta v bytes s off = some f := by
  obtain ⟨l, hl, rfl⟩ := mem_levels_of_levelFor v off bytes h
  cases v <;> simp only [levels, List.mem_cons, List.not_mem_nil, or_false] at hl
  case v1 => exact hl ▸ ⟨_, rfl⟩
  case v2 => obtain rfl | rfl := hl <;> exact ⟨_, rfl⟩
  case v3 => obtain rfl | rfl | rfl := hl <;> exact ⟨_, rfl⟩

/-- The encoded length is that of the level, or 4 for a raw form (R63). -/
theorem length_encodeDelta_eq (v : Variant) (last new : Nat) :
    (encodeDelta v last new).length = (levelFor v (offset last new)).getD 4 := by
  cases hlevel : levelFor v (offset last new) with
  | none => rw [encodeDelta_of_no_level hlevel, length_emitRaw, Option.getD_none]
  | some bytes =>
    obtain ⟨f, hf⟩ := exists_emitDelta_of_levelFor hlevel (signBit last new)
    rw [encodeDelta_of_level hlevel hf, (length_of_emitDelta v bytes _ _ f hf).1, Option.getD_some]

/-- A larger offset needs no shorter level: the levels stand with fewest bytes first (R12, R63). -/
theorem levelFor_getD_mono (v : Variant) {off off' : Nat} (h : off ≤ off') :
    (levelFor v off).getD 4 ≤ (levelFor v off').getD 4 := by
  cases v <;> simp only [levelFor_v1, levelFor_v2, levelFor_v3] <;> split_ifs <;>
    simp only [Option.getD_some, Option.getD_none] <;> omega

/-- Settles O11: the length depends on the offset only, through its level. -/
theorem encodedLengthIsMonotone : Obligations.EncodedLengthIsMonotone := by
  intro v l m l' m' h
  rw [length_encodeDelta_eq, length_encodeDelta_eq]
  exact levelFor_getD_mono v h

end Sys2Proof.Machine
end

/-! ## The bit of the sign (R65 to R70) -/

section
namespace Sys2Proof.Machine

/-- The last `k` bytes of a number do not show what is added above them. -/
theorem be_mul_add (c lo k : Nat) : be (c * 256 ^ k + lo) k = be lo k := by
  refine ube_injective _ _ (by rw [length_be, length_be]) ?_
  rw [ube_be, ube_be, Nat.mul_add_mod']

/-- A delta form carries its sign with weight 64 in the lead byte, right below the marker, and everything else below
(R65 to R70). -/
theorem emitDelta_eq_be (v : Variant) (bytes bits off : Nat) (hl : (bytes, bits) ∈ levels v)
    (hoff : off ≤ cap bits) :
    ∃ k lo, bytes = k + 1 ∧ lo < 64 * 256 ^ k ∧
      ∀ s, emitDelta v bytes s off = some (be ((128 + 64 * bitNat s) * 256 ^ k + lo) (k + 1)) := by
  unfold cap at hoff
  have word (x y n : Nat) (h : x = y) : some (be x n) = some (be y n) := by rw [h]
  cases v <;> simp only [levels, List.mem_cons, List.not_mem_nil, or_false, Prod.mk.injEq] at hl
  case v1 =>
    obtain ⟨rfl, rfl⟩ := hl
    exact ⟨2, off, rfl, by omega, fun s => word _ _ 3 (by omega)⟩
  case v2 =>
    obtain ⟨rfl, rfl⟩ | ⟨rfl, rfl⟩ := hl
    · exact ⟨1, off, rfl, by omega, fun s => word _ _ 2 (by omega)⟩
    · exact ⟨2, 2 ^ 21 + off, rfl, by omega, fun s => word _ _ 3 (by omega)⟩
  case v3 =>
    obtain ⟨rfl, rfl⟩ | ⟨rfl, rfl⟩ | ⟨rfl, rfl⟩ := hl
    · exact ⟨0, off, rfl, by omega, fun s => word _ _ 1 (by omega)⟩
    · exact ⟨1, 2 ^ 13 + off, rfl, by omega, fun s => word _ _ 2 (by omega)⟩
    · exact ⟨2, 2 ^ 21 + 2 ^ 20 + off, rfl, by omega, fun s => word _ _ 3 (by omega)⟩

/-- The bytes of such a number: the sign in the lead byte, the others without it. -/
theorem be_sign (s : Bool) (k lo : Nat) :
    be ((128 + 64 * bitNat s) * 256 ^ k + lo) (k + 1) =
      BitVec.ofNat 8 (128 + 64 * bitNat s + lo / 256 ^ k) :: be lo k := by
  rw [be, be_mul_add, Nat.mul_comm, Nat.mul_add_div (by positivity)]

/-- Two lead bytes that differ by 64, with nothing else in that place, differ in bit 6 alone. -/
theorem leadByte_bitSix : ∀ q < 64,
    BitVec.ofNat 8 (192 + q) = BitVec.ofNat 8 (128 + q) ||| 0x40#8 ∧
      BitVec.ofNat 8 (128 + q) = BitVec.ofNat 8 (192 + q) &&& 0xBF#8 := by
  decide

/-- Settles O12: the two emissions are one number with and without the weight of bit 6 of the lead byte. -/
theorem signChangesOnlyBitSix : Obligations.SignChangesOnlyBitSix := by
  intro v bytes bits off hl hoff
  obtain ⟨k, lo, rfl, hlo, hemit⟩ := emitDelta_eq_be v bytes bits off hl hoff
  obtain ⟨hup, hdown⟩ := leadByte_bitSix (lo / 256 ^ k) (Nat.div_lt_of_lt_mul (Nat.mul_comm 64 _ ▸ hlo))
  refine ⟨_, _, be lo k, by rw [length_be], ?_, ?_, hup, hdown⟩
  · rw [hemit, be_sign]
    rfl
  · rw [hemit, be_sign]
    rfl

end Sys2Proof.Machine
end

/-! ## A row that is written or rejected (R59, R61, R71) -/

section
namespace Sys2Proof.Machine

/-- A row is forced raw by `E_FIRST` or by a refresh that is due (R61). -/
theorem forcedRaw_iff (e : EncState) :
    forcedRaw e = true ↔ e.first = true ∨ (0 < e.cfg.r ∧ e.run = e.cfg.r) := by
  simp only [forcedRaw, Bool.or_eq_true, Bool.and_eq_true, decide_eq_true_iff, beq_iff_eq]

theorem rowForms_of_forced {e : EncState} (row : List Word) (h : forcedRaw e = true) :
    rowForms e row = row.map (fun w => emitRaw w.toNat) :=
  if_pos h

theorem rowForms_of_not_forced {e : EncState} (row : List Word) (h : ¬forcedRaw e = true) :
    rowForms e row = List.zipWith (fun l w => encodeDelta e.cfg.variant l.toNat w.toNat) e.last row :=
  if_neg h

theorem nextRun_of_forced {e : EncState} (h : forcedRaw e = true) : nextRun e = 0 :=
  if_pos h

theorem nextRun_of_not_forced {e : EncState} (h : ¬forcedRaw e = true) :
    nextRun e = if 0 < e.cfg.r then e.run + 1 else 0 :=
  if_neg h

/-- Bytes overflow exactly a `BUF_CAP` that is finite and too small (R71). -/
theorem overflows_eq_false_iff (bufCap : Option Nat) (len : Nat) :
    overflows bufCap len = false ↔ ∀ c, bufCap = some c → len ≤ c := by
  cases bufCap <;> simp [overflows]

/-- `BUF` after a row, index by index: as before below `BUF_LEN`, the row's bytes from there on, nothing above (R20,
R59 step 5). -/
theorem read_acceptRow_buf (row : List Word) (forms : List (List Byte)) (e : EncState)
    (hdense : Memory.Dense e.buf e.bufLen) (i : Nat) :
    (e.acceptRow row forms).buf.read i =
      if i < e.bufLen then e.buf.read i else forms.flatten[i - e.bufLen]? := by
  obtain ⟨hbuf, -⟩ := acceptRow_buffer row forms e
  rw [hbuf, Memory.read_writeBytes]
  by_cases hbelow : i < e.bufLen
  · rw [if_neg (by omega), if_pos hbelow]
  · rw [if_neg hbelow]
    split
    · rfl
    · have hold : e.buf.read i = none := by
        rwa [← Option.not_isSome_iff_eq_none, Memory.isSome_read_dense _ _ _ hdense]
      rw [hold, List.getElem?_eq_none (by omega)]

/-- Settles O13: the row's forms are those of the model, they fit, and the next state is that of an accepted row. -/
theorem writeRowAppendsItsForms : Obligations.WriteRowAppendsItsForms := by
  rintro s row forms forced hinv ⟨-, hrange⟩ hforced hraw hdelta hfit
  rw [← forcedRaw_iff] at hforced
  have hforms : rowForms s.enc row = forms := by
    by_cases h : forced
    · rw [rowForms_of_forced row (hforced.1 h), hraw h]
    · rw [rowForms_of_not_forced row (mt hforced.2 h), hdelta h]
  have hexec := exec_writeRow_of_fits row s hrange (by rwa [hforms, overflows_eq_false_iff])
  rw [hforms] at hexec
  obtain ⟨-, hlen⟩ := acceptRow_buffer row forms s.enc
  exact ⟨_, hexec, rfl, rfl, rfl, rfl, rfl, rfl, fun h => nextRun_of_forced (hforced.1 h),
    fun h => nextRun_of_not_forced (mt hforced.2 h), hlen, read_acceptRow_buf row forms s.enc hinv.buf_dense, rfl⟩

/-- `WRITE_ROW` of values in range that do not fit only answers `BufferOverflow` (R71, R112). -/
theorem exec_writeRow_of_overflows (row : List Word) (s : State) (hrow : ∀ w ∈ row, w.toNat < 2 ^ 31)
    (hfull : overflows s.enc.cfg.bufCap (s.enc.bufLen + formsLength (rowForms s.enc row)) = true) :
    exec (.writeRow row) s = .next (s.respond .encoder .bufferOverflow .nothing []) := by
  have hok : firstOutOfRange row = none := (outOfRangeFrom_eq_none 0 row).2 hrow
  change execWriteRow row s = _
  obtain ⟨c, hbad, -⟩ | ⟨-, -, hx⟩ | ⟨-, hfit, -⟩ := execWriteRow_cases row s
  · cases hok.symm.trans hbad
  · exact hx
  · cases hfit.symm.trans hfull

/-- Settles O15: values in range leave the bound of the buffer as the only reason to reject. -/
theorem writeRowOverflowChangesNothing : Obligations.WriteRowOverflowChangesNothing := by
  intro s row hrange
  constructor
  · intro c hcap hfull
    refine ⟨_, exec_writeRow_of_overflows row s hrange ?_, rfl⟩
    rw [hcap]
    exact decide_eq_true hfull
  · intro hcap
    exact ⟨_, exec_writeRow_of_fits row s hrange (by rw [hcap, overflows_none]), rfl⟩

/-- A forced row takes 4 bytes a column (R61, R64). -/
theorem formsLength_rowForms_of_forced {e : EncState} (row : List Word) (h : forcedRaw e = true) :
    formsLength (rowForms e row) = 4 * row.length := by
  simp [rowForms_of_forced row h, formsLength, List.length_flatten, Function.comp_def, Nat.mul_comm]

/-- Settles O16: `BUF_LEN` grows by the length of the row's forms, which are all raw. -/
theorem forcedRowTakesFourBytesAColumn : Obligations.ForcedRowTakesFourBytesAColumn := by
  rintro s row ⟨hcount, hrange⟩ hcap hforced
  obtain ⟨t, hexec, hlen⟩ := exec_writeRow_unbounded row s hrange hcap
  exact ⟨t, hexec, by rw [hlen, formsLength_rowForms_of_forced row ((forcedRaw_iff _).2 hforced), hcount]⟩

end Sys2Proof.Machine
end

/-! ## The phase of the refresh counter (R61)

Counted modulo R+1, the rows since the encoder was reset are a function of `E_FIRST` and `E_RUN`. -/

section
namespace Sys2Proof.Machine

/-- Where an encoder stands between two forced rows: 0 before its first row, else one more than `E_RUN`. -/
def refreshPhase (e : EncState) : Nat :=
  if e.first then 0 else e.run + 1

/-- With a refresh interval, a row is forced exactly at the phases that are multiples of R+1 (R61). -/
theorem forcedRaw_iff_refreshPhase (e : EncState) (hrun : e.run ≤ e.cfg.r) (hr : 0 < e.cfg.r) :
    forcedRaw e = true ↔ refreshPhase e % (e.cfg.r + 1) = 0 := by
  rw [forcedRaw_iff, refreshPhase]
  cases e.first with
  | true => simp
  | false =>
    have hphase : (e.run + 1) % (e.cfg.r + 1) = 0 ↔ e.run = e.cfg.r := by
      constructor
      · intro h
        have := Nat.le_of_dvd (Nat.succ_pos _) (Nat.dvd_of_mod_eq_zero h)
        omega
      · intro h
        rw [h, Nat.mod_self]
    simp [hphase, hr]

/-- A row that is accepted moves the phase on by one (R59 step 5, R61). -/
theorem refreshPhase_acceptRow (row : List Word) (forms : List (List Byte)) (e : EncState) (hrun : e.run ≤ e.cfg.r)
    (hr : 0 < e.cfg.r) : refreshPhase (e.acceptRow row forms) ≡ refreshPhase e + 1 [MOD e.cfg.r + 1] := by
  have hnew : refreshPhase (e.acceptRow row forms) = nextRun e + 1 := rfl
  rw [hnew]
  refine Nat.ModEq.add_right 1 ?_
  by_cases h : forcedRaw e = true
  · rw [nextRun_of_forced h]
    exact ((forcedRaw_iff_refreshPhase e hrun hr).1 h).symm
  · have hfirst : ¬e.first = true := fun hf => h ((forcedRaw_iff e).2 (.inl hf))
    rw [nextRun_of_not_forced h, if_pos hr, refreshPhase, if_neg hfirst]

/-- With `BUF_CAP = ∞` rows of values in range are all accepted, and move the phase on by their number (R59, R61). -/
theorem writeRows_refreshPhase (rows : List (List Word)) (s : State) (hrun : s.enc.run ≤ s.enc.cfg.r)
    (hcap : s.enc.cfg.bufCap = none) (hrows : ∀ row ∈ rows, ∀ w ∈ row, w.toNat < 2 ^ 31) :
    ∃ t, writeRows rows s = .next t ∧ t.enc.cfg = s.enc.cfg ∧ t.enc.run ≤ t.enc.cfg.r ∧
      (t.enc.first = true ↔ s.enc.first = true ∧ rows = []) ∧
      (0 < s.enc.cfg.r → refreshPhase t.enc ≡ refreshPhase s.enc + rows.length [MOD s.enc.cfg.r + 1]) := by
  induction rows generalizing s with
  | nil => exact ⟨s, rfl, rfl, hrun, by simp, fun _ => rfl⟩
  | cons row rows ih =>
    obtain ⟨hrow, hrows⟩ := List.forall_mem_cons.1 hrows
    have hexec := exec_writeRow_of_fits row s hrow (by rw [hcap, overflows_none])
    obtain ⟨t, ht, hcfg, htrun, hfirst, hphase⟩ := ih (State.respond .encoder .ok .nothing []
      { s with enc := s.enc.acceptRow row (rowForms s.enc row) }) (nextRun_le s.enc hrun) hcap hrows
    refine ⟨t, by rw [writeRows, hexec]; exact ht, hcfg, htrun, ?_, fun hr => ?_⟩
    · rw [hfirst]
      simp
    · calc refreshPhase t.enc
          ≡ refreshPhase (s.enc.acceptRow row (rowForms s.enc row)) + rows.length [MOD s.enc.cfg.r + 1] := hphase hr
        _ ≡ refreshPhase s.enc + 1 + rows.length [MOD s.enc.cfg.r + 1] :=
            (refreshPhase_acceptRow row _ s.enc hrun hr).add_right _
        _ = refreshPhase s.enc + (row :: rows).length := by rw [List.length_cons]; omega

/-- Settles O17: the phase is 0 before the first row, so after `k` rows it is `k` modulo R+1. -/
theorem refreshPeriodIsRPlusOne : Obligations.RefreshPeriodIsRPlusOne := by
  intro s rows hinv hfirst hcap hrows
  obtain ⟨t, hexec, hcfg, hrun, htfirst, hphase⟩ :=
    writeRows_refreshPhase rows s hinv.run_le hcap fun row hrow => (hrows row hrow).2
  refine ⟨t, hexec, fun hr => ?_, fun hr => ?_⟩
  · have hstart : refreshPhase s.enc = 0 := if_pos hfirst
    have hcount : refreshPhase t.enc % (s.enc.cfg.r + 1) = rows.length % (s.enc.cfg.r + 1) := by
      have hmod := hphase hr
      rwa [hstart, Nat.zero_add] at hmod
    rw [forcedRaw_iff_refreshPhase t.enc hrun (hcfg ▸ hr), hcfg, hcount]
  · rw [forcedRaw_iff, hcfg, hr, htfirst]
    simp [hfirst]

end Sys2Proof.Machine
end

/-! # Proofs: the decoder (spec/41_decoder.md)

What the stream decodes to and what one step does with it: the chunk taken, a form that commits or faults, the form
that is not all there. Then the steps of a `DECOMPRESS` together are the loop of R73, and chunks and rows are read off
that loop. -/

/-! ## Raw forms in every variant (R76, R110) -/

section
namespace Sys2Proof.Machine

/-- A form that decodes from the front of a byte string decodes to the same whatever follows (R53). -/
theorem decodeForm_append (v : Variant) (bs more : List Byte) (i : Instr) (h : decodeForm v bs = .ok i) :
    decodeForm v (bs ++ more) = .ok i := by
  obtain ⟨b, rest, rfl, -, hlen⟩ := decodeForm_ok v bs i h
  have hi := decodeAs_ok _ b rest i h
  change decodeAs (classify v b) b (rest ++ more) = _
  obtain ⟨-, j, hj, -⟩ | ⟨hshort, -⟩ := decodeAs_cases (classify v b) b (rest ++ more)
  · rw [hj, decodeAs_ok _ b _ j hj, hi, ← List.cons_append, List.take_append_of_le_length hlen]
  · rw [List.length_append] at hshort
    rw [List.length_cons] at hlen
    omega

/-- Settles O9: a raw form is the encoding of `RAW`, which exists in every variant. -/
theorem rawDecodesInEveryVariant : Obligations.RawDecodesInEveryVariant := by
  intro v x rest
  obtain ⟨hraw, -⟩ := emissionIsTheEncoding
  have hdec := decodeInvertsEncode v 0 (.raw x) rfl
  rw [← hraw x] at hdec
  exact decodeForm_append v _ rest _ hdec

end Sys2Proof.Machine
end

/-! ## The step that runs an instruction (R73, R89, R100) -/

section
namespace Sys2Proof.Machine

/-- Where the bytes at `D_POS` decode, the turn of the decoder runs the form (R73 step 2). -/
theorem fetchDecoder_of_decodes (s : State) (a : Decoding) (bs : List Byte) (i : Instr) (ha : s.dec.active = some a)
    (hpos : a.pos < a.len) (hbs : a.chunk.readBytes a.pos (windowLength a) = some bs)
    (hi : decodeForm s.dec.cfg.variant bs = .ok i) : fetchDecoder s = .instr i s := by
  simp only [fetchDecoder, ha, fetchForm, if_neg (Nat.not_le.2 hpos), hbs, hi]

/-- A decoder takes no command exactly while a `DECOMPRESS` runs; an encoder always does (R100). -/
theorem busy_eq_false_iff (b : Block) (s : State) :
    busy b s = false ↔ (b = .decoder → s.dec.active = none) := by
  cases b with
  | encoder => exact iff_of_true rfl nofun
  | decoder => simp [busy]

/-- A command whose block is free and whose code is defined is taken from the inputs and run (R89). -/
theorem step_of_command (s : State) (c : Command) (rest : List Input) (i : Instr)
    (hin : s.inputs = .command c :: rest) (hfree : c.block = .decoder → s.dec.active = none)
    (hi : decodeCommand s.enc.cfg.n c = .ok i) : step s = exec i { s with inputs := rest } := by
  have hbusy : busy c.block s = false := (busy_eq_false_iff _ s).2 hfree
  simp only [step_eq_run, fetch, hin, hbusy, Bool.false_eq_true, if_false, fetchCommand, hi, Fetched.run]

/-- Settles O1: what the inputs let the decoder do is its turn, and that turn is the form; a command to a free block is
its own instruction. -/
theorem stepRunsTheDecodedInstruction : Obligations.StepRunsTheDecodedInstruction := by
  refine ⟨fun s a bs i ha hpos hbs hi => ⟨fun hin => ?_, fun rest hin => ?_, fun c rest hin hc => ?_⟩, step_of_command⟩
  · have hturn := fetchDecoder_of_decodes s a bs i ha hpos hbs hi
    simp only [step_eq_run, fetch, hin, hturn, Fetched.run]
  · have hturn := fetchDecoder_of_decodes { s with inputs := rest } a bs i ha hpos hbs hi
    simp only [step_eq_run, fetch, hin, hturn, Fetched.run]
  · have hbusy : busy c.block s = true := by rw [hc, busy, ha]; rfl
    have hturn := fetchDecoder_of_decodes s a bs i ha hpos hbs hi
    simp only [step_eq_run, fetch, hin, hbusy, if_true, hturn, Fetched.run]

end Sys2Proof.Machine
end

/-! ## The chunk that is taken (R73 step 1) -/

section
namespace Sys2Proof.Machine

theorem exec_decompress_of_no_fault (chunk : List Byte) (s : State) (h : s.dec.fault = 0) :
    exec (.decompress chunk) s = .next (s.beginDecompress chunk) :=
  if_pos h

theorem exec_decompress_of_fault (chunk : List Byte) (s : State) (h : s.dec.fault ≠ 0) :
    exec (.decompress chunk) s = .next (s.respond .decoder .refused (.latched s.dec.fault) []) :=
  if_neg h

/-- Settles O24: the chunk is stored from index 0 on, so it is dense and reads as its bytes. -/
theorem decompressTakesTheChunk : Obligations.DecompressTakesTheChunk := by
  intro s chunk hfault
  exact ⟨_, _, exec_decompress_of_no_fault chunk s hfault, rfl, rfl, rfl, rfl, Memory.dense_ofBytes chunk,
    Memory.read_ofBytes chunk⟩

end Sys2Proof.Machine
end

/-! ## A form that commits or faults (R76 to R84) -/

section
namespace Sys2Proof.Machine

theorem executeForm_ok (len : Nat) (v : Value) (s : State) (a : Decoding) (ha : s.dec.active = some a) :
    executeForm len (.ok v) s = .next (s.commit v len a) := by
  simp only [executeForm, ha]

/-- The fault of a form, where it is sticky, is latched with the rows completed before it (R117). -/
theorem executeForm_error (len : Nat) (f : FaultReport) (s : State) (a : Decoding) (ha : s.dec.active = some a)
    (hf : sticky f.status = true) :
    ∃ t, executeForm len (.error f) s = .next t ∧ LatchesFault (statusCode f.status) f.status f.info a s t :=
  ⟨_, by simp only [executeForm, ha], takeFault_decoder_sticky f s a hf ha⟩

/-- The cursor steps cyclically (R25). -/
theorem nextColumn_eq (n c : Nat) (h : c < n) : nextColumn n c = if c + 1 = n then 0 else c + 1 := by
  unfold nextColumn
  split
  · rename_i hlast
    rw [hlast, Nat.mod_self]
  · exact Nat.mod_eq_of_lt (by omega)

/-- The entry of a list after one of its entries is replaced. -/
theorem getD_set_of_lt {α : Type} (l : List α) (k c : Nat) (x y : α) (hc : c < l.length) :
    (l.set k x).getD c y = if c = k then x else l.getD c y := by
  simp only [List.getD_eq_getElem?_getD, List.getElem?_set, eq_comm (a := c)]
  split
  · rename_i hk
    rw [if_pos (hk ▸ hc), Option.getD_some]
  · rfl

/-- `Commit` does what R84 says, register by register. -/
theorem commit_commitsValue (s : State) (a : Decoding) (v : Value) (len : Nat) (hinv : s.dec.Inv)
    (ha : s.dec.active = some a) : CommitsValue v len s (s.commit v len a) := by
  have hnext := nextColumn_eq s.dec.cfg.n s.dec.cur hinv.cur_lt
  constructor
  case last_length => exact List.length_set
  case valid_length => exact List.length_set
  case acc_length => exact List.length_set
  case last => exact fun c hc => getD_set_of_lt _ _ _ _ _ (hinv.last_length.symm ▸ hc)
  case valid => exact fun c hc => getD_set_of_lt _ _ _ _ _ (hinv.valid_length.symm ▸ hc)
  case acc =>
    intro c hc
    rw [commit_rowAcc, DecState.accumulate, List.getElem?_set]
    by_cases h : c = s.dec.cur
    · subst h
      rw [if_pos rfl, if_pos rfl, if_pos (hinv.acc_length.symm ▸ hc)]
    · rw [if_neg (Ne.symm h), if_neg h]
  case cur => exact hnext
  case active =>
    refine ⟨a, _, ha, rfl, rfl, rfl, rfl, ?_⟩
    rw [advance_rows, hnext, commit_rowAcc]
    by_cases h : s.dec.cur + 1 = s.dec.cfg.n
    · rw [if_pos h, if_pos h, if_pos rfl]
    · rw [if_neg h, if_neg h, if_neg (Nat.succ_ne_zero _)]
  all_goals rfl

/-- Settles O26: `RAW` commits its value without looking at the column. -/
theorem rawFormCommitsItsValue : Obligations.RawFormCommitsItsValue := by
  intro s a v hinv ha
  exact ⟨_, executeForm_ok 4 v s a ha, commit_commitsValue s a v 4 hinv ha⟩

/-- The exact sum of R83, its sign taken to the magnitude. -/
theorem deltaSum_eq (sg : Bool) (mag last : Nat) :
    deltaSum sg mag last = (last : Int) + (if sg then (mag : Int) else -mag) := by
  cases sg
  · exact Int.sub_eq_add_neg
  · rfl

/-- `ApplyDelta` with a reference and a sum that is a value answers that value (R83). -/
theorem applyDelta_ok (sg : Bool) (mag : Nat) (d : DecState) (x : Value) (href : hasReference d d.cur = true)
    (hx : (x.toNat : Int) = deltaSum sg mag (lastValue d d.cur).toNat) : applyDelta sg mag d = .ok x := by
  have hlt := x.isLt
  obtain ⟨hno, -⟩ | ⟨-, hout, -⟩ | ⟨-, -, -, h⟩ := applyDelta_cases sg mag d
  · cases href.symm.trans hno
  · omega
  · rw [h, ← hx, BitVec.ofInt_natCast, BitVec.ofNat_toNat, BitVec.setWidth_eq]

/-- Settles O27: each delta form is `ApplyDelta` and a commit. -/
theorem deltaFormsCommitTheSum : Obligations.DeltaFormsCommitTheSum := by
  intro s a sg x hinv ha href
  have hform (len mag : Nat)
      (hx : (x.toNat : Int) = (lastValue s.dec s.dec.cur).toNat + (if sg then (mag : Int) else -mag)) :
      ∃ t, executeForm len (applyDelta sg mag s.dec) s = .next t ∧ CommitsValue x len s t := by
    rw [applyDelta_ok sg mag s.dec x href (by rw [deltaSum_eq, hx]), executeForm_ok len x s a ha]
    exact ⟨_, rfl, commit_commitsValue s a x len hinv ha⟩
  exact ⟨fun m => hform 3 m.toNat, fun m => hform 2 m.toNat, fun m => hform 3 m.toNat, fun m => hform 1 m.toNat,
    fun m => hform 2 m.toNat, fun m => hform 3 m.toNat⟩

/-- Settles O28: without a reference `ApplyDelta` is `NoReference`, whatever the operand. -/
theorem deltaWithoutReferenceFaults : Obligations.DeltaWithoutReferenceFaults := by
  intro s a sg ha hno
  have hform (len mag : Nat) : ∃ t, executeForm len (applyDelta sg mag s.dec) s = .next t ∧
      LatchesFault 6 .noReference (.column s.dec.cur) a s t := by
    obtain ⟨-, h⟩ | ⟨href, -⟩ | ⟨href, -⟩ := applyDelta_cases sg mag s.dec
    · rw [h]
      exact executeForm_error len _ s a ha rfl
    · cases hno.symm.trans href
    · cases hno.symm.trans href
  exact ⟨fun m => hform 3 m.toNat, fun m => hform 2 m.toNat, fun m => hform 3 m.toNat, fun m => hform 1 m.toNat,
    fun m => hform 2 m.toNat, fun m => hform 3 m.toNat⟩

/-- Settles O29: with a reference and the sum out of range `ApplyDelta` is `DecodedOutOfRange` with that sum. -/
theorem deltaOutOfRangeFaults : Obligations.DeltaOutOfRangeFaults := by
  intro s a sg x ha href hout
  have hform (len mag : Nat) (hx : x = (lastValue s.dec s.dec.cur).toNat + (if sg then (mag : Int) else -mag)) :
      ∃ t, executeForm len (applyDelta sg mag s.dec) s = .next t ∧
        LatchesFault 5 .decodedOutOfRange (.outOfRange s.dec.cur x) a s t := by
    rw [← deltaSum_eq] at hx
    obtain ⟨hno, -⟩ | ⟨-, -, h⟩ | ⟨-, hlow, hhigh, -⟩ := applyDelta_cases sg mag s.dec
    · cases href.symm.trans hno
    · rw [h, ← hx]
      exact executeForm_error len _ s a ha rfl
    · omega
  exact ⟨fun m => hform 3 m.toNat, fun m => hform 2 m.toNat, fun m => hform 3 m.toNat, fun m => hform 1 m.toNat,
    fun m => hform 2 m.toNat, fun m => hform 3 m.toNat⟩

end Sys2Proof.Machine
end

/-! ## The output word (R84, R102) -/

section
namespace Sys2Proof.Machine

/-- Settles O34: both the value and `SIGN_OFFSET` are below 2^31, so their difference fits 32 bits. -/
theorem outputWordIsTheResignedValue : Obligations.OutputWordIsTheResignedValue := by
  rintro cfg c v ⟨-, -, -, hoffset⟩
  have hv := v.isLt
  constructor
  · intro hc
    rw [outputWord, if_pos hc, resignify]
    exact BitVec.toInt_ofInt_eq_self (by decide) (by omega) (by omega)
  · intro hc
    rw [outputWord, if_neg hc, BitVec.toNat_setWidth]
    exact Nat.mod_eq_of_lt (by omega)

end Sys2Proof.Machine
end

/-! ## The value a form computes (R76 to R83) -/

section
namespace Sys2Proof.Machine

/-- The value a wire form computes for column `D_CUR`, or its fault (R76 to R82); a command computes none. -/
def computedValue (i : Instr) (d : DecState) : Option (Except FaultReport Value) :=
  match i with
  | .raw v => some (.ok v)
  | .v1d3 sg mag => some (applyDelta sg mag.toNat d)
  | .v2d2 sg mag => some (applyDelta sg mag.toNat d)
  | .v2d3 sg mag => some (applyDelta sg mag.toNat d)
  | .v3d1 sg mag => some (applyDelta sg mag.toNat d)
  | .v3d2 sg mag => some (applyDelta sg mag.toNat d)
  | .v3d3 sg mag => some (applyDelta sg mag.toNat d)
  | _ => none

/-- A form commits or raises what it computes, with its own length (R76 to R82). -/
theorem exec_of_computedValue (i : Instr) (f : Form) (s : State) (value : Except FaultReport Value)
    (hf : formOf i = some f) (hv : computedValue i s.dec = some value) :
    exec i s = executeForm (formLength f) value s := by
  cases i <;> cases hf <;> cases hv <;> rfl

/-- The marker of a lead byte tells the raw form from the delta forms, in every variant (R44, R53). -/
theorem marker_eq_false_iff (v : Variant) (b : Byte) : b.getLsbD 7 = false ↔ classify v b = .raw := by
  rw [classify_eq_raw_iff, marker_eq, decide_eq_false_iff_not, Nat.not_le]

/-- What a form decoded from the stream computes is what R73 computes from its bytes (R52). -/
theorem computedValue_of_decodeForm (d : DecState) (b : Byte) (rest : List Byte) (i : Instr)
    (h : decodeForm d.cfg.variant (b :: rest) = .ok i) :
    computedValue i d = some (formValue d b ((b :: rest).take (formLength (classify d.cfg.variant b)))) := by
  have hmarker := marker_eq_false_iff d.cfg.variant b
  rw [decodeAs_ok _ b rest i h, ← formInstr_mod, formValue]
  generalize classify d.cfg.variant b = f at hmarker
  cases f
  case raw =>
    rw [hmarker.2 rfl]
    rfl
  all_goals
    rw [Bool.eq_true_of_not_eq_false (mt hmarker.1 nofun)]
    simp [formInstr, computedValue, signOf, payloadBits]

end Sys2Proof.Machine
end

/-! ## The bytes that are left of a chunk (R73, R74)

A turn of the decoder by the bytes from `D_POS` to the end of the chunk. -/

section
namespace Sys2Proof.Machine

/-- The bytes from `D_POS` to the end of the chunk. -/
structure Decoding.Remaining (a : Decoding) (bs : List Byte) : Prop where
  len : a.pos + bs.length = a.len
  read : ∀ i < bs.length, a.chunk.read (a.pos + i) = bs[i]?

/-- An operation in progress has such bytes (R27, R35). -/
theorem Decoding.Inv.exists_remaining {n : Nat} {a : Decoding} (h : Decoding.Inv n a) : ∃ bs, a.Remaining bs := by
  have hpos := h.pos_le
  obtain ⟨bs, hbs⟩ := Memory.readBytes_isSome a.chunk a.len a.pos (a.len - a.pos) h.chunk_dense (by omega)
  obtain ⟨hlen, hread⟩ := (Memory.readBytes_eq_some _ _ _ _).1 hbs
  exact ⟨bs, by omega, fun i hi => hread i (hlen ▸ hi)⟩

/-- At the start they are the chunk (R73 step 1). -/
theorem remaining_ofBytes (chunk : List Byte) :
    Decoding.Remaining { chunk := Memory.ofBytes chunk, len := chunk.length, pos := 0, rows := [] } chunk where
  len := Nat.zero_add _
  read i _ := by rw [Nat.zero_add, Memory.read_ofBytes]

/-- After a form they are those after its bytes (R84). -/
theorem Decoding.Remaining.advance {a : Decoding} {bs : List Byte} (h : a.Remaining bs) (len cur : Nat) (acc : Row)
    (hlen : len ≤ bs.length) : (a.advance len cur acc).Remaining (bs.drop len) where
  len := by
    have := h.len
    rw [advance_pos, advance_len, List.length_drop]
    omega
  read i hi := by
    rw [List.length_drop] at hi
    rw [advance_chunk, advance_pos, Nat.add_assoc, h.read _ (by omega), List.getElem?_drop]

/-- What the fetch of a form looks at are the first of them, as many as the longest form has (R73). -/
theorem Decoding.Remaining.window {a : Decoding} {bs : List Byte} (h : a.Remaining bs) :
    a.chunk.readBytes a.pos (windowLength a) = some (bs.take (formLength .raw)) := by
  have hlen : a.len - a.pos = bs.length := by have := h.len; omega
  rw [Memory.readBytes_eq_some, windowLength, hlen]
  refine ⟨List.length_take, fun i hi => ?_⟩
  obtain ⟨hi4, hi⟩ := lt_min_iff.1 hi
  rw [List.getElem?_take_of_lt hi4, h.read i hi]

/-- With no byte left the turn is the end of the chunk (R85). -/
theorem fetchForm_of_nil (s : State) {a : Decoding} (h : a.Remaining []) : fetchForm a s = .event (s.endOfChunk a) :=
  if_pos h.len.ge

/-- With too few bytes left for the form announced, the turn is a truncation (R74). -/
theorem fetchForm_of_short (s : State) {a : Decoding} {b : Byte} {rest : List Byte} (h : a.Remaining (b :: rest))
    (hshort : rest.length + 1 < formLength (classify s.dec.cfg.variant b)) :
    fetchForm a s = .event (s.truncated a) := by
  have hlen := h.len
  obtain ⟨hend, -⟩ | ⟨-, bs, i, hbs, hi, -⟩ | ⟨-, -, -, -, -, hx⟩ | ⟨-, hbs, -⟩ := fetchForm_cases s a
  · rw [List.length_cons] at hlen
    omega
  · cases h.window.symm.trans hbs
    obtain ⟨_, _, hcons, -, hpresent⟩ := decodeForm_ok _ _ _ hi
    cases hcons
    have hle := List.length_take_le' (formLength .raw) (b :: rest)
    rw [List.length_cons] at hle
    omega
  · exact hx
  · cases h.window.symm.trans hbs

/-- With the bytes of the form announced left, the turn is that form, and it computes the value of R73 (R76 to R82). -/
theorem fetchForm_of_present (s : State) {a : Decoding} {b : Byte} {rest : List Byte} (h : a.Remaining (b :: rest))
    (hpresent : formLength (classify s.dec.cfg.variant b) ≤ rest.length + 1) :
    ∃ i, fetchForm a s = .instr i s ∧ formOf i = some (classify s.dec.cfg.variant b) ∧
      computedValue i s.dec =
        some (formValue s.dec b ((b :: rest).take (formLength (classify s.dec.cfg.variant b)))) := by
  have hmax := formLength_le (classify s.dec.cfg.variant b)
  have hwindow : (b :: rest).take (formLength .raw) = b :: rest.take 3 := rfl
  obtain ⟨-, i, hi, hf⟩ | ⟨hshort, -⟩ := decodeAs_cases (classify s.dec.cfg.variant b) b (rest.take 3)
  · refine ⟨i, ?_, hf, ?_⟩
    · have hpos : ¬a.len ≤ a.pos := by rw [← h.len, List.length_cons]; omega
      simp only [fetchForm, if_neg hpos, h.window, hwindow, decodeForm, hi]
    · rw [computedValue_of_decodeForm s.dec b _ i hi, ← hwindow, List.take_take, min_eq_left hmax]
  · have hraw : formLength .raw = 4 := rfl
    rw [List.length_take] at hshort
    omega

/-- Settles O30: fewer bytes are left than the lead byte announces. -/
theorem incompleteFormTruncates : Obligations.IncompleteFormTruncates := by
  intro s a b hinv hin ha hb hshort
  obtain ⟨bs, hrem⟩ := (hinv.active_inv a ha).exists_remaining
  have hlen := hrem.len
  have hsome : a.pos < a.len := by
    rw [← Memory.isSome_read_dense _ _ _ (hinv.active_inv a ha).chunk_dense, hb]
    rfl
  cases bs with
  | nil =>
    rw [List.length_nil] at hlen
    omega
  | cons c rest =>
    obtain rfl : c = b := Option.some.inj ((hrem.read 0 (Nat.succ_pos _)).symm.trans hb)
    rw [List.length_cons] at hlen
    refine ⟨s.truncated a, ?_, truncated_eq s a ha⟩
    rw [step_of_running s a hin ha, fetchForm_of_short s hrem (by omega)]
    rfl

end Sys2Proof.Machine
end

/-! ## The loop of R73 -/

section
namespace Sys2Proof.Machine

/-- The rows completed so far after one more value, where the registers are now `d` (R84). -/
def DecState.collect (d : DecState) (rows : List Row) : List Row :=
  if d.cur = 0 then rows ++ [d.rowAcc] else rows

/-- With no byte left the loop ends (R73 steps 3 and 4). -/
theorem decompressLoop_nil (k pos : Nat) (rows : List Row) (d : DecState) :
    decompressLoop k pos [] rows d = d.ended pos rows := by
  cases k <;> rfl

/-- With too few bytes left for the form announced the loop is cut short (R74). -/
theorem decompressLoop_short (k pos : Nat) (b : Byte) (rest : List Byte) (rows : List Row) (d : DecState)
    (h : rest.length + 1 < formLength (classify d.cfg.variant b)) :
    decompressLoop (k + 1) pos (b :: rest) rows d =
      d.failed { status := .truncatedStream, info := .position pos d.cur } rows :=
  if_pos h

/-- With its bytes left, a form that raises a fault ends the loop (R117). -/
theorem decompressLoop_error (k pos : Nat) (b : Byte) (rest : List Byte) (rows : List Row) (d : DecState)
    (f : FaultReport) (h : formLength (classify d.cfg.variant b) ≤ rest.length + 1)
    (hf : formValue d b ((b :: rest).take (formLength (classify d.cfg.variant b))) = .error f) :
    decompressLoop (k + 1) pos (b :: rest) rows d = d.failed f rows := by
  simp only [decompressLoop, if_neg (Nat.not_lt.2 h), hf]

/-- With its bytes left, a form that computes a value commits it, and the loop goes on (R84). -/
theorem decompressLoop_ok (k pos : Nat) (b : Byte) (rest : List Byte) (rows : List Row) (d : DecState)
    (x : Value) (h : formLength (classify d.cfg.variant b) ≤ rest.length + 1)
    (hx : formValue d b ((b :: rest).take (formLength (classify d.cfg.variant b))) = .ok x) :
    decompressLoop (k + 1) pos (b :: rest) rows d =
      decompressLoop k (pos + formLength (classify d.cfg.variant b))
        ((b :: rest).drop (formLength (classify d.cfg.variant b))) ((d.committed x).collect rows) (d.committed x) := by
  simp only [decompressLoop, if_neg (Nat.not_lt.2 h), hx]
  rfl

/-- A form at `D_POS` is cut short, or raises a fault, or computes a value (R73 step 2). -/
theorem form_cases (d : DecState) (b : Byte) (rest : List Byte) :
    rest.length + 1 < formLength (classify d.cfg.variant b) ∨
    (formLength (classify d.cfg.variant b) ≤ rest.length + 1 ∧
      ∃ f, formValue d b ((b :: rest).take (formLength (classify d.cfg.variant b))) = .error f) ∨
    (formLength (classify d.cfg.variant b) ≤ rest.length + 1 ∧
      ∃ x, formValue d b ((b :: rest).take (formLength (classify d.cfg.variant b))) = .ok x) := by
  obtain hshort | hpresent := Nat.lt_or_ge (rest.length + 1) (formLength (classify d.cfg.variant b))
  · exact .inl hshort
  · cases hvalue : formValue d b ((b :: rest).take (formLength (classify d.cfg.variant b))) with
    | error f => exact .inr (.inl ⟨hpresent, f, rfl⟩)
    | ok x => exact .inr (.inr ⟨hpresent, x, rfl⟩)

/-- The faults of a form are sticky (R106). -/
theorem formValue_sticky (d : DecState) (b : Byte) (word : List Byte) (f : FaultReport)
    (h : formValue d b word = .error f) : sticky f.status = true := by
  unfold formValue at h
  dsimp only at h
  split at h
  · exact applyDelta_sticky _ _ _ f h
  · cases h

end Sys2Proof.Machine
end

/-! ## The steps of a `DECOMPRESS` are the loop (R4, R73, R100) -/

section
namespace Sys2Proof.Machine

/-- A machine with nothing to do stays as it is, however many steps it takes (R125). -/
theorem runFor_of_waiting (k : Nat) (s : State) (hin : s.inputs = []) (hidle : s.dec.active = none) :
    runFor k s = .next s := by
  have hstep : step s = .next s := by simp only [step_eq_run, fetch, hin, fetchDecoder, hidle, Fetched.run]
  induction k with
  | zero => rfl
  | succ k ih => rw [runFor, hstep]; exact ih

theorem runFor_succ_of_step (k : Nat) (s t : State) (h : step s = .next t) : runFor (k + 1) s = runFor k t := by
  rw [runFor, h]

/-- The decoder `d` of R73's pseudocode, which holds neither `CHUNK` nor `D_POS`, with the operation `a` in progress. -/
def DecState.running (d : DecState) (a : Decoding) : DecState :=
  { d with active := some a, rsp := none }

/-- The end of a running operation is the end of the loop (R73 steps 3 and 4). -/
theorem endOfChunk_running (s : State) (d : DecState) (a : Decoding) (hd : s.dec = d.running a)
    (hidle : d.active = none) (hend : a.pos = a.len) :
    s.endOfChunk a = { s with dec := d.ended a.pos a.rows } := by
  obtain ⟨enc, dec, inputs⟩ := s
  obtain rfl : dec = d.running a := hd
  obtain ⟨hcur, hx⟩ | ⟨hcur, hx⟩ := endOfChunk_cases ⟨enc, d.running a, inputs⟩ a
  · have hcur : d.cur = 0 := hcur
    rw [hx, DecState.ended, if_neg (not_not.2 hcur), hend]
    simp only [State.finishDecompress, State.respond, DecState.running, hidle]
  · have hcur : d.cur ≠ 0 := hcur
    rw [hx, truncated_eq _ a rfl, DecState.ended, if_pos hcur]
    simp only [DecState.failed, DecState.running, hidle]
    rfl

/-- A sticky fault of a running operation is what the pseudocode leaves (R117). -/
theorem takeFault_running (s : State) (d : DecState) (a : Decoding) (f : FaultReport) (hd : s.dec = d.running a)
    (hidle : d.active = none) (hf : sticky f.status = true) :
    s.takeFault .decoder f = { s with dec := d.failed f a.rows } := by
  obtain ⟨enc, dec, inputs⟩ := s
  obtain rfl : dec = d.running a := hd
  rw [takeFault_decoder_sticky f _ a hf rfl]
  simp only [DecState.failed, DecState.running, hidle]

/-- A commit of a running operation is the commit of the pseudocode, with the operation moved on (R84). -/
theorem commit_running (s : State) (d : DecState) (a : Decoding) (x : Value) (len : Nat) (hd : s.dec = d.running a) :
    (s.commit x len a).dec =
      (d.committed x).running (a.advance len (d.committed x).cur (d.committed x).rowAcc) := by
  simp only [State.commit, hd]
  rfl

/-- A form in a running operation takes the step of the loop (R73 step 2). -/
theorem step_running_form (s : State) (d : DecState) (a : Decoding) (b : Byte) (rest : List Byte)
    (hin : s.inputs = []) (hd : s.dec = d.running a) (hrem : a.Remaining (b :: rest))
    (h : formLength (classify d.cfg.variant b) ≤ rest.length + 1) :
    step s = executeForm (formLength (classify d.cfg.variant b))
      (formValue d b ((b :: rest).take (formLength (classify d.cfg.variant b)))) s := by
  have hcfg : s.dec.cfg = d.cfg := by rw [hd]; rfl
  have hvalue (word : List Byte) : formValue s.dec b word = formValue d b word := by rw [hd]; rfl
  have hactive : s.dec.active = some a := by rw [hd]; rfl
  rw [← hcfg] at h ⊢
  obtain ⟨i, hfetch, hform, hcomputes⟩ := fetchForm_of_present s hrem h
  rw [step_of_running s a hin hactive, hfetch, ← hvalue]
  exact exec_of_computedValue i _ s _ hform hcomputes

/-- A step that ends the operation is the last that does anything. -/
theorem runFor_of_ending_step (k : Nat) (s t : State) (h : step s = .next t) (hin : t.inputs = [])
    (hidle : t.dec.active = none) : runFor (k + 1) s = .next t := by
  rw [runFor_succ_of_step k s t h, runFor_of_waiting k t hin hidle]

theorem failed_active (d : DecState) (f : FaultReport) (rows : List Row) : (d.failed f rows).active = d.active :=
  rfl

theorem ended_active (d : DecState) (pos : Nat) (rows : List Row) : (d.ended pos rows).active = d.active := by
  unfold DecState.ended
  split <;> rfl

/-- With no byte left the run is the end of the chunk. -/
theorem runFor_running_nil (k : Nat) (s : State) (d : DecState) (a : Decoding) (hin : s.inputs = [])
    (hd : s.dec = d.running a) (hidle : d.active = none) (hrem : a.Remaining []) :
    runFor (k + 1) s = .next { s with dec := d.ended a.pos a.rows } := by
  have hstep := step_at_end s a hin (by rw [hd]; rfl) hrem.len.ge
  rw [endOfChunk_running s d a hd hidle hrem.len] at hstep
  exact runFor_of_ending_step k s _ hstep hin (by rw [ended_active, hidle])

/-- The simulation: from a running operation, as many steps as bytes are left and one more lead to the decoder that the
loop computes over these bytes. -/
theorem runFor_eq_decompressLoop (k : Nat) (s : State) (d : DecState) (a : Decoding) (bs : List Byte)
    (hin : s.inputs = []) (hd : s.dec = d.running a) (hidle : d.active = none) (hrem : a.Remaining bs)
    (hk : bs.length ≤ k) :
    runFor (k + 1) s = .next { s with dec := decompressLoop k a.pos bs a.rows d } := by
  induction k generalizing s d a bs with
  | zero =>
    obtain rfl := List.length_eq_zero_iff.1 (Nat.le_zero.1 hk)
    exact runFor_running_nil 0 s d a hin hd hidle hrem
  | succ k ih =>
    cases bs with
    | nil => exact runFor_running_nil (k + 1) s d a hin hd hidle hrem
    | cons b rest =>
      have hactive : s.dec.active = some a := by rw [hd]; rfl
      obtain hshort | ⟨hpresent, f, hvalue⟩ | ⟨hpresent, x, hvalue⟩ := form_cases d b rest
      · have hstep : step s = .next (s.truncated a) := by
          rw [step_of_running s a hin hactive, fetchForm_of_short s hrem (by rw [hd]; exact hshort)]
          rfl
        rw [State.truncated, takeFault_running s d a _ hd hidle rfl] at hstep
        rw [decompressLoop_short k _ b rest _ d hshort, runFor_of_ending_step _ s _ hstep hin hidle, hd]
        rfl
      · have hstep := step_running_form s d a b rest hin hd hrem hpresent
        have hf := formValue_sticky d b _ f hvalue
        simp only [hvalue, executeForm, hactive, takeFault_running s d a f hd hidle hf] at hstep
        rw [decompressLoop_error k _ b rest _ d f hpresent hvalue, runFor_of_ending_step _ s _ hstep hin hidle]
      · have hstep := step_running_form s d a b rest hin hd hrem hpresent
        have hpos := formLength_pos (classify d.cfg.variant b)
        rw [hvalue, executeForm_ok _ x s a hactive] at hstep
        rw [decompressLoop_ok k _ b rest _ d x hpresent hvalue, runFor_succ_of_step _ s _ hstep]
        exact ih (s.commit x _ a) (d.committed x) _ _ hin (commit_running s d a x _ hd) hidle
          (hrem.advance _ _ _ hpresent) (by rw [List.length_drop]; omega)

/-- The first step of a `DECOMPRESS` runs its command (R89, R100). -/
theorem decompressAll_eq_of_exec (chunk : List Byte) (s t : State) (hidle : s.dec.active = none)
    (h : exec (.decompress chunk) { s with inputs := [] } = .next t) :
    decompressAll chunk s = runFor (chunk.length + 1) t :=
  runFor_succ_of_step _ _ _ <|
    (step_of_command { s with inputs := [.command (decompressCommand chunk)] } (decompressCommand chunk) [] _ rfl
      (fun _ => hidle) rfl).trans h

/-- A whole `DECOMPRESS` of an idle decoder is the operation of R73. -/
theorem decompressAll_eq (chunk : List Byte) (s : State) (hidle : s.dec.active = none) :
    decompressAll chunk s = .next { s with dec := decompressOperation chunk s.dec, inputs := [] } := by
  by_cases hfault : s.dec.fault = 0
  · rw [decompressAll_eq_of_exec chunk s _ hidle (exec_decompress_of_no_fault chunk _ hfault), decompressOperation,
      if_neg (not_not.2 hfault)]
    exact runFor_eq_decompressLoop _ _ s.dec _ chunk rfl rfl hidle (remaining_ofBytes chunk) le_rfl
  · rw [decompressAll_eq_of_exec chunk s _ hidle (exec_decompress_of_fault chunk _ hfault), decompressOperation,
      if_pos hfault]
    exact runFor_of_waiting _ _ rfl hidle

/-- Without a latched fault the operation is the loop (R73). -/
theorem decompressAll_eq_loop (chunk : List Byte) (s : State) (hidle : s.dec.active = none)
    (hfault : s.dec.fault = 0) :
    decompressAll chunk s =
      .next { s with dec := decompressLoop chunk.length 0 chunk [] s.dec, inputs := [] } := by
  rw [decompressAll_eq chunk s hidle, decompressOperation, if_neg (not_not.2 hfault)]

/-- Settles O47: the first step takes the chunk, or refuses it, and the others are the loop. -/
theorem decompressStepsAreTheOperation : Obligations.DecompressStepsAreTheOperation :=
  fun s chunk _ hidle => decompressAll_eq chunk s hidle

end Sys2Proof.Machine
end

/-! ## Whole forms in a chunk (R73, R75)

Bytes that are whole forms, each with a value to commit, take the loop from one set of registers to another, whatever
stands after them in the chunk. -/

section
namespace Sys2Proof.Machine

/-- The bytes are forms that all commit: they lead from the registers `d` with the completed rows `rows` to `e` with
`out`. -/
inductive DecodesTo : List Byte → DecState → List Row → DecState → List Row → Prop where
  | nil (d : DecState) (rows : List Row) : DecodesTo [] d rows d rows
  | form {b : Byte} {rest : List Byte} {d e : DecState} {rows out : List Row} {x : Value}
      (present : formLength (classify d.cfg.variant b) ≤ (b :: rest).length)
      (value : formValue d b ((b :: rest).take (formLength (classify d.cfg.variant b))) = .ok x)
      (tail : DecodesTo ((b :: rest).drop (formLength (classify d.cfg.variant b))) (d.committed x)
        ((d.committed x).collect rows) e out) :
      DecodesTo (b :: rest) d rows e out

/-- Forms after forms. -/
theorem DecodesTo.append {A B : List Byte} {d e g : DecState} {rows out final : List Row} (h : DecodesTo A d rows e out)
    (k : DecodesTo B e out g final) : DecodesTo (A ++ B) d rows g final := by
  induction h with
  | nil d rows => exact k
  | @form b rest d e rows out x present value _ ih =>
    refine .form (rest := rest ++ B) (x := x) (present.trans (by simp)) ?_ ?_
    · rwa [← List.cons_append, List.take_append_of_le_length present]
    · rw [← List.cons_append, List.drop_append_of_le_length present]
      exact ih k

/-- Forms change columns only: the parameters, `D_FAULT` and the idle operation stay (R84). -/
theorem DecodesTo.frame {A : List Byte} {d e : DecState} {rows out : List Row} (h : DecodesTo A d rows e out) :
    e.cfg = d.cfg ∧ e.fault = d.fault ∧ e.active = d.active := by
  induction h with
  | nil d rows => exact ⟨rfl, rfl, rfl⟩
  | form _ _ _ ih => exact ih

/-- The loop over such bytes and more is the loop over what comes after them. -/
theorem DecodesTo.decompressLoop_append {A : List Byte} {d e : DecState} {rows out : List Row}
    (h : DecodesTo A d rows e out) (B : List Byte) (k pos : Nat) (hk : A.length + B.length ≤ k) :
    ∃ j, B.length ≤ j ∧
      decompressLoop k pos (A ++ B) rows d = decompressLoop j (pos + A.length) B out e := by
  induction h generalizing k pos with
  | nil d rows => exact ⟨k, by simpa using hk, rfl⟩
  | @form b rest d e rows out x present value _ ih =>
    have hlen : rest.length + 1 + B.length ≤ k := hk
    have hpos := formLength_pos (classify d.cfg.variant b)
    have htake := List.take_append_of_le_length (l₂ := B) present
    have hdrop := List.drop_append_of_le_length (l₂ := B) present
    rw [List.length_cons] at present
    obtain ⟨k, rfl⟩ := Nat.exists_eq_succ_of_ne_zero (show k ≠ 0 by omega)
    obtain ⟨j, hj, hloop⟩ := ih k (pos + formLength (classify d.cfg.variant b)) (by
      rw [List.length_drop, List.length_cons]
      omega)
    refine ⟨j, hj, ?_⟩
    rw [List.cons_append] at htake hdrop ⊢
    rw [decompressLoop_ok k pos b _ rows d x (by rw [List.length_append]; omega) (by rw [htake, value]), hdrop,
      hloop, List.length_drop, List.length_cons, Nat.add_assoc, Nat.add_sub_cancel' present]

/-- The loop over such bytes alone is the end of the chunk after them. -/
theorem DecodesTo.decompressLoop_eq {A : List Byte} {d e : DecState} {rows out : List Row}
    (h : DecodesTo A d rows e out) (k pos : Nat) (hk : A.length ≤ k) :
    decompressLoop k pos A rows d = e.ended (pos + A.length) out := by
  obtain ⟨j, -, hloop⟩ := h.decompressLoop_append [] k pos hk
  rw [List.append_nil, decompressLoop_nil] at hloop
  exact hloop

/-- The registers of an ended operation with its metrics and its answer set. -/
def DecState.reported (d : DecState) (comp uncomp : Nat) (rsp : Option Response) : DecState :=
  { d with comp := comp, uncomp := uncomp, rsp := rsp }

/-- At a row boundary the chunk ends with `OK` (R73 step 4). -/
theorem ended_of_boundary (d : DecState) (pos : Nat) (rows : List Row) (h : d.cur = 0) :
    d.ended pos rows = d.reported pos (rows.length * d.cfg.n * 4)
      (some { status := .ok, info := .nothing, rows := rows }) :=
  if_neg (not_not.2 h)

/-- An answer of `OK` does not come from a sticky fault (R106). -/
theorem failed_not_ok (d : DecState) (f : FaultReport) (rows : List Row) (hf : sticky f.status = true) :
    (d.failed f rows).rsp.map Response.status ≠ some .ok := by
  intro h
  have hok : f.status = .ok := Option.some.inj h
  rw [hok] at hf
  cases hf

/-- At the end of the chunk it comes from a row boundary (R85). -/
theorem boundary_of_ended_ok (d : DecState) (pos : Nat) (rows : List Row)
    (h : (d.ended pos rows).rsp.map Response.status = some .ok) : d.cur = 0 := by
  by_contra hcur
  rw [DecState.ended, if_pos hcur] at h
  exact failed_not_ok _ _ _ rfl h

/-- A chunk that is answered `OK` is made of forms that all commit, up to a row boundary. -/
theorem decodesTo_of_ok (k pos : Nat) (A : List Byte) (rows : List Row) (d : DecState) (hk : A.length ≤ k)
    (hok : (decompressLoop k pos A rows d).rsp.map Response.status = some .ok) :
    ∃ e out, DecodesTo A d rows e out ∧ e.cur = 0 := by
  induction k generalizing pos A rows d with
  | zero =>
    obtain rfl := List.length_eq_zero_iff.1 (Nat.le_zero.1 hk)
    exact ⟨d, rows, .nil d rows, boundary_of_ended_ok d pos rows hok⟩
  | succ k ih =>
    cases A with
    | nil => exact ⟨d, rows, .nil d rows, boundary_of_ended_ok d pos rows hok⟩
    | cons b rest =>
      obtain hshort | ⟨hpresent, f, hvalue⟩ | ⟨hpresent, x, hvalue⟩ := form_cases d b rest
      · rw [decompressLoop_short k pos b rest rows d hshort] at hok
        exact absurd hok (failed_not_ok _ _ _ rfl)
      · rw [decompressLoop_error k pos b rest rows d f hpresent hvalue] at hok
        exact absurd hok (failed_not_ok _ _ _ (formValue_sticky d b _ f hvalue))
      · have hpos := formLength_pos (classify d.cfg.variant b)
        rw [decompressLoop_ok k pos b rest rows d x hpresent hvalue] at hok
        obtain ⟨e, out, htail, hcur⟩ := ih _ _ _ _ (by rw [List.length_drop]; omega) hok
        exact ⟨e, out, .form hpresent hvalue htail, hcur⟩

end Sys2Proof.Machine
end

/-! ## A chunk cut at a row boundary (R75) -/

section
namespace Sys2Proof.Machine

/-- The decoder `w` answers the status of `v` with the rows of `v` after others, and agrees with it in `D_LAST`,
`D_VALID`, `D_CUR` and `D_FAULT`. -/
structure AnswersAfter (before : List Row) (w v : DecState) : Prop where
  last : w.last = v.last
  valid : w.valid = v.valid
  cur : w.cur = v.cur
  fault : w.fault = v.fault
  answer : ∃ q r, w.rsp = some q ∧ v.rsp = some r ∧ q.status = r.status ∧ q.rows = before ++ r.rows

theorem failed_answersAfter (before rows : List Row) (d : DecState) (comp uncomp : Nat) (rsp : Option Response)
    (f g : FaultReport) (h : f.status = g.status) :
    AnswersAfter before (d.failed f (before ++ rows)) ((d.reported comp uncomp rsp).failed g rows) :=
  ⟨rfl, rfl, rfl, congrArg statusCode h, _, _, rfl, rfl, h, rfl⟩

theorem ended_answersAfter (before rows : List Row) (d : DecState) (comp uncomp : Nat) (rsp : Option Response)
    (pos pos' : Nat) :
    AnswersAfter before (d.ended pos (before ++ rows)) ((d.reported comp uncomp rsp).ended pos' rows) := by
  by_cases h : d.cur = 0
  · rw [ended_of_boundary d _ _ h, ended_of_boundary (d.reported comp uncomp rsp) _ _ h]
    exact ⟨rfl, rfl, rfl, rfl, _, _, rfl, rfl, rfl, rfl⟩
  · rw [DecState.ended, if_pos h, DecState.ended, if_pos (show (d.reported comp uncomp rsp).cur ≠ 0 from h)]
    exact failed_answersAfter before rows d comp uncomp rsp _ _ rfl

theorem collect_append (d : DecState) (before rows : List Row) :
    d.collect (before ++ rows) = before ++ d.collect rows := by
  unfold DecState.collect
  split
  · exact List.append_assoc ..
  · rfl

/-- The loop looks at no metric and no answer, at `D_POS` and the rows completed so far only to report them. -/
theorem decompressLoop_answersAfter (k j pos pos' : Nat) (bs : List Byte) (before rows : List Row) (d : DecState)
    (comp uncomp : Nat) (rsp : Option Response) (hk : bs.length ≤ k) (hj : bs.length ≤ j) :
    AnswersAfter before (decompressLoop k pos bs (before ++ rows) d)
      (decompressLoop j pos' bs rows (d.reported comp uncomp rsp)) := by
  induction k generalizing j pos pos' bs rows d with
  | zero =>
    obtain rfl := List.length_eq_zero_iff.1 (Nat.le_zero.1 hk)
    rw [decompressLoop_nil, decompressLoop_nil]
    exact ended_answersAfter ..
  | succ k ih =>
    cases bs with
    | nil =>
      rw [decompressLoop_nil, decompressLoop_nil]
      exact ended_answersAfter ..
    | cons b rest =>
      obtain ⟨j, rfl⟩ := Nat.exists_eq_succ_of_ne_zero (Nat.ne_of_gt (Nat.lt_of_lt_of_le (Nat.succ_pos _) hj))
      obtain hshort | ⟨hpresent, f, hvalue⟩ | ⟨hpresent, x, hvalue⟩ := form_cases d b rest
      · rw [decompressLoop_short k pos b rest _ d hshort, decompressLoop_short j pos' b rest rows
          (d.reported comp uncomp rsp) hshort]
        exact failed_answersAfter before rows d comp uncomp rsp _ _ rfl
      · rw [decompressLoop_error k pos b rest _ d f hpresent hvalue,
          decompressLoop_error j pos' b rest rows (d.reported comp uncomp rsp) f hpresent hvalue]
        exact failed_answersAfter before rows d comp uncomp rsp _ _ rfl
      · have hpos := formLength_pos (classify d.cfg.variant b)
        have hdrop (m : Nat) (hm : (b :: rest).length ≤ m + 1) :
            ((b :: rest).drop (formLength (classify d.cfg.variant b))).length ≤ m := by
          rw [List.length_drop]
          omega
        rw [decompressLoop_ok k pos b rest _ d x hpresent hvalue,
          decompressLoop_ok j pos' b rest rows (d.reported comp uncomp rsp) x hpresent hvalue, collect_append]
        exact ih j _ _ _ _ (d.committed x) (hdrop k hk) (hdrop j hj)

/-- Settles O50: the first chunk is made of whole forms, so the loop over both goes on where the second chunk begins. -/
theorem chunksMayBeCutAtRowBoundaries : Obligations.ChunksMayBeCutAtRowBoundaries := by
  intro s u v A B rowsA r _ hidle hfault hA hok hB hr
  rw [decompressAll_eq_loop A s hidle hfault] at hA
  cases hA
  obtain ⟨e, out, hforms, hcur⟩ := decodesTo_of_ok A.length 0 A [] s.dec le_rfl (congrArg _ hok)
  obtain ⟨-, hefault, heidle⟩ := hforms.frame
  have hended := hforms.decompressLoop_eq A.length 0 le_rfl
  rw [ended_of_boundary e _ out hcur] at hended
  rw [hended] at hok hB
  cases hok
  rw [decompressAll_eq_loop B _ (heidle.trans hidle) (hefault.trans hfault)] at hB
  cases hB
  obtain ⟨j, hj, hboth⟩ := hforms.decompressLoop_append B (A ++ B).length 0 List.length_append.ge
  obtain ⟨hlast, hvalid, hcur, hfault', q, r', hq, hr', hstatus, hrows⟩ :=
    decompressLoop_answersAfter j B.length (0 + A.length) 0 B rowsA [] e _ _ _ hj le_rfl
  cases hr'.symm.trans hr
  rw [List.append_nil, ← hboth] at hlast hvalid hcur hfault' hq
  exact ⟨_, q, decompressAll_eq_loop (A ++ B) s hidle hfault, hq, hstatus, hrows, hlast, hvalid, hcur, hfault'⟩

end Sys2Proof.Machine
end

/-! ## The form of a value decodes to the value (R62 to R70, R76 to R83) -/

section
namespace Sys2Proof.Machine

/-- The bytes are one form, and it computes `x` for the current column of `d`. -/
def FormFor (d : DecState) (bs : List Byte) (x : Value) : Prop :=
  ∃ b rest, bs = b :: rest ∧ bs.length = formLength (classify d.cfg.variant b) ∧ formValue d b bs = .ok x

/-- One form commits its value (R84). -/
theorem DecodesTo.of_formFor {d : DecState} {bs : List Byte} {x : Value} (h : FormFor d bs x) (rows : List Row) :
    DecodesTo bs d rows (d.committed x) ((d.committed x).collect rows) := by
  obtain ⟨b, rest, rfl, hlen, hvalue⟩ := h
  refine .form (x := x) hlen.ge ?_ ?_
  · rw [← hlen, List.take_length, hvalue]
  · rw [← hlen, List.drop_length]
    exact .nil _ _

/-- The encoding of a form of the variant is one form, and computes what the instruction computes (R52, R53). -/
theorem formFor_of_encode (d : DecState) (i : Instr) (bs : List Byte) (x : Value)
    (hwf : WellFormed d.cfg.variant 0 i = true) (hbs : encode i = .form bs)
    (hx : computedValue i d = some (.ok x)) : FormFor d bs x := by
  have hdec := decodeInvertsEncode d.cfg.variant 0 i hwf
  rw [hbs] at hdec
  obtain ⟨b, rest, rfl, hform, hpresent⟩ := decodeForm_ok _ _ i hdec
  have hvalue := computedValue_of_decodeForm d b rest i hdec
  obtain ⟨sg, p, rfl⟩ := exists_formInstr i _ hform
  have hlen : (b :: rest).length = formLength (classify d.cfg.variant b) := by
    rw [encode_formInstr] at hbs
    rw [← Encoded.form.inj hbs, length_be]
  rw [← hlen, List.take_length, hx] at hvalue
  exact ⟨b, rest, rfl, hlen, (Option.some.inj hvalue).symm⟩

/-- A raw form decodes to its value, whatever the decoder holds (R64, R76). -/
theorem formFor_emitRaw (d : DecState) (x : Value) : FormFor d (emitRaw x.toNat) x := by
  obtain ⟨hraw, -⟩ := emissionIsTheEncoding
  exact formFor_of_encode d (.raw x) _ x rfl (hraw x).symm rfl

/-- Sign and offset lead from the last value to the new one (R62, R83). -/
theorem deltaSum_offset (last new : Nat) : deltaSum (signBit last new) (offset last new) last = new := by
  rw [deltaSum_eq]
  obtain h | h := Nat.lt_or_ge new last
  · rw [signBit, decide_eq_false (Nat.not_le.2 h), offset_of_lt h, if_neg nofun]
    omega
  · rw [signBit, decide_eq_true h, offset_of_le h, if_pos rfl]
    omega

/-- A delta form `mk` whose emission rule is `emit` carries every offset its payload holds (R65 to R70, R77 to R82). -/
theorem exists_delta_instr {k : Nat} {v : Variant} (mk : Bool → BitVec k → Instr) (emit : Bool → Nat → List Byte)
    (hemit : ∀ s m, Encoded.form (emit s m.toNat) = encode (mk s m)) (hwf : ∀ s m, WellFormed v 0 (mk s m) = true)
    (hvalue : ∀ s m d, computedValue (mk s m) d = some (applyDelta s m.toNat d)) (s : Bool) (off : Nat)
    (hoff : off < 2 ^ k) :
    ∃ i, WellFormed v 0 i = true ∧ encode i = .form (emit s off) ∧
      ∀ d, computedValue i d = some (applyDelta s off d) := by
  have hm : (BitVec.ofNat k off).toNat = off := Nat.mod_eq_of_lt hoff
  exact ⟨mk s (BitVec.ofNat k off), hwf _ _, by rw [← hemit, hm], fun d => by rw [hvalue, hm]⟩

/-- What the encoder emits for a value is a raw form or a delta form of the variant with its sign and its offset
(R62 to R70). -/
theorem encodeDelta_cases (v : Variant) (last new : Nat) :
    encodeDelta v last new = emitRaw new ∨
    ∃ i, WellFormed v 0 i = true ∧ encode i = .form (encodeDelta v last new) ∧
      ∀ d, computedValue i d = some (applyDelta (signBit last new) (offset last new) d) := by
  obtain ⟨-, hv1d3, hv2d2, hv2d3, hv3d1, hv3d2, hv3d3⟩ := emissionIsTheEncoding
  cases v
  case v1 =>
    rw [encodeDelta_v1]
    split_ifs
    · exact .inr (exists_delta_instr .v1d3 _ hv1d3 (fun _ _ => rfl) (fun _ _ _ => rfl) _ _ (by omega))
    · exact .inl rfl
  case v2 =>
    rw [encodeDelta_v2]
    split_ifs
    · exact .inr (exists_delta_instr .v2d2 _ hv2d2 (fun _ _ => rfl) (fun _ _ _ => rfl) _ _ (by omega))
    · exact .inr (exists_delta_instr .v2d3 _ hv2d3 (fun _ _ => rfl) (fun _ _ _ => rfl) _ _ (by omega))
    · exact .inl rfl
  case v3 =>
    rw [encodeDelta_v3]
    split_ifs
    · exact .inr (exists_delta_instr .v3d1 _ hv3d1 (fun _ _ => rfl) (fun _ _ _ => rfl) _ _ (by omega))
    · exact .inr (exists_delta_instr .v3d2 _ hv3d2 (fun _ _ => rfl) (fun _ _ _ => rfl) _ _ (by omega))
    · exact .inr (exists_delta_instr .v3d3 _ hv3d3 (fun _ _ => rfl) (fun _ _ _ => rfl) _ _ (by omega))
    · exact .inl rfl

/-- A delta form decodes to its value where the decoder holds the last value it was made from (R83). -/
theorem formFor_encodeDelta (d : DecState) (last new : Value) (href : hasReference d d.cur = true)
    (hlast : lastValue d d.cur = last) : FormFor d (encodeDelta d.cfg.variant last.toNat new.toNat) new := by
  obtain hraw | ⟨i, hwf, hbs, hi⟩ := encodeDelta_cases d.cfg.variant last.toNat new.toNat
  · rw [hraw]
    exact formFor_emitRaw d new
  · refine formFor_of_encode d i _ new hwf hbs ?_
    rw [hi, applyDelta_ok _ _ d new href (by rw [hlast, deltaSum_offset])]

end Sys2Proof.Machine
end

/-! ## A row in a chunk (R59, R84)

The forms of a row lead a decoder that is in step with the encoder through its columns, one after the other. -/

section
namespace Sys2Proof.Machine

/-- The columns below `c` are the new ones, the others the old ones. -/
def firstColumns {α : Type} (c : Nat) (new old : List α) : List α :=
  new.take c ++ old.drop c

theorem firstColumns_all {α : Type} (new old : List α) (h : old.length = new.length) :
    firstColumns new.length new old = new := by
  rw [firstColumns, List.take_length, ← h, List.drop_length, List.append_nil]

/-- Column `c` is the first that is old. -/
theorem getElem?_firstColumns {α : Type} (c : Nat) (new old : List α) (h : c ≤ new.length) :
    (firstColumns c new old)[c]? = old[c]? := by
  rw [firstColumns, List.getElem?_append_right (by simp), List.length_take, min_eq_left h, Nat.sub_self,
    List.getElem?_drop, Nat.add_zero]

/-- With column `c` replaced, one more column is new. -/
theorem set_firstColumns {α : Type} (c : Nat) (new old : List α) (h : c < new.length)
    (hl : old.length = new.length) :
    (firstColumns c new old).set c new[c] = firstColumns (c + 1) new old := by
  have hlen : (new.take c).length = c := by rw [List.length_take, min_eq_left h.le]
  rw [firstColumns, firstColumns, List.set_append_right _ _ hlen.le, hlen, Nat.sub_self,
    List.drop_eq_getElem_cons (hl ▸ h), List.set_cons_zero, List.take_succ_eq_append_getElem h, List.append_assoc]
  rfl

/-- The registers of the columns have one entry a column (R22). -/
structure DecState.Sized (d : DecState) : Prop where
  last : d.last.length = d.cfg.n
  valid : d.valid.length = d.cfg.n
  acc : d.rowAcc.length = d.cfg.n

/-- The decoder at a row boundary after `c` more values, those of the columns of `row` (R84). -/
def DecState.withColumns (d : DecState) (row : List Word) (c : Nat) : DecState :=
  { d with
    last := firstColumns c (row.map (fun w => w.setWidth 31)) d.last
    valid := firstColumns c (List.replicate d.cfg.n true) d.valid
    rowAcc := firstColumns c (outputRow d.cfg row) d.rowAcc
    cur := c % d.cfg.n }

theorem withColumns_zero (d : DecState) (row : List Word) (h : d.cur = 0) : d.withColumns row 0 = d := by
  obtain ⟨cfg, last, valid, cur, rowAcc, fault, comp, uncomp, active, rsp⟩ := d
  obtain rfl : cur = 0 := h
  simp [DecState.withColumns, firstColumns]

/-- After all its columns a row is in the registers, and the cursor is back at 0 (R84). -/
theorem withColumns_all (d : DecState) (row : List Word) (hd : d.Sized) (hrow : row.length = d.cfg.n) :
    d.withColumns row d.cfg.n =
      { d with
        last := row.map (fun w => w.setWidth 31)
        valid := List.replicate d.cfg.n true
        rowAcc := outputRow d.cfg row
        cur := 0 } := by
  have hlast := firstColumns_all (row.map (fun w => w.setWidth 31)) d.last (by rw [List.length_map, hrow, hd.last])
  have hvalid := firstColumns_all (List.replicate d.cfg.n true) d.valid (by rw [List.length_replicate, hd.valid])
  have hacc := firstColumns_all (outputRow d.cfg row) d.rowAcc (by rw [outputRow, List.length_mapIdx, hrow, hd.acc])
  rw [List.length_map, hrow] at hlast
  rw [List.length_replicate] at hvalid
  rw [outputRow, List.length_mapIdx, hrow, ← outputRow] at hacc
  rw [DecState.withColumns, hlast, hvalid, hacc, Nat.mod_self]

theorem sized_withColumns_all (d : DecState) (row : List Word) (hd : d.Sized) (hrow : row.length = d.cfg.n) :
    (d.withColumns row d.cfg.n).Sized := by
  rw [withColumns_all d row hd hrow]
  exact ⟨by rwa [List.length_map], List.length_replicate, by rwa [outputRow, List.length_mapIdx]⟩

/-- The value of column `c` of the row, committed, takes the decoder one column on (R84). -/
theorem committed_withColumns (d : DecState) (row : List Word) (c : Nat) (hd : d.Sized) (hrow : row.length = d.cfg.n)
    (hc : c < row.length) :
    (d.withColumns row c).committed (row[c].setWidth 31) = d.withColumns row (c + 1) := by
  have hcur : c % d.cfg.n = c := Nat.mod_eq_of_lt (hrow ▸ hc)
  have hlast := set_firstColumns c (row.map (fun w => w.setWidth 31)) d.last (by simpa) (by simp [hrow, hd.last])
  have hvalid := set_firstColumns c (List.replicate d.cfg.n true) d.valid (by simpa [← hrow]) (by simp [hd.valid])
  have hacc := set_firstColumns c (outputRow d.cfg row) d.rowAcc (by simpa [outputRow])
    (by simp [outputRow, hrow, hd.acc])
  simp only [List.getElem_map, List.getElem_replicate, outputRow, List.getElem_mapIdx] at hlast hvalid hacc
  simp only [DecState.committed, DecState.withColumns, hcur, hlast, hvalid, outputRow, hacc]

/-- Before column `c` of the row, the current column is `c` and is as before the row. -/
theorem current_withColumns (d : DecState) (row : List Word) (c : Nat) (hrow : row.length = d.cfg.n)
    (hc : c < row.length) :
    lastValue (d.withColumns row c) (d.withColumns row c).cur = lastValue d c ∧
      hasReference (d.withColumns row c) (d.withColumns row c).cur = hasReference d c := by
  have hcur : c % d.cfg.n = c := Nat.mod_eq_of_lt (hrow ▸ hc)
  simp only [lastValue, hasReference, DecState.withColumns, hcur, List.getD_eq_getElem?_getD]
  rw [getElem?_firstColumns _ _ _ (by simpa using hc.le), getElem?_firstColumns _ _ _ (by simpa [← hrow] using hc.le)]
  exact ⟨rfl, rfl⟩

/-- The row is complete exactly after its last column (R84). -/
theorem collect_withColumns (d : DecState) (row : List Word) (c : Nat) (rows : List Row) (hd : d.Sized)
    (hrow : row.length = d.cfg.n) (hc : c < row.length) :
    (d.withColumns row (c + 1)).collect rows =
      if c + 1 = d.cfg.n then rows ++ [outputRow d.cfg row] else rows := by
  by_cases h : c + 1 = d.cfg.n
  · rw [if_pos h, h, withColumns_all d row hd hrow]
    rfl
  · have hcur : (c + 1) % d.cfg.n ≠ 0 := by rw [Nat.mod_eq_of_lt (by omega)]; omega
    rw [if_neg h]
    exact if_neg hcur

/-- Forms that each carry the value of their column lead through the row. -/
theorem columns_decodesTo (d : DecState) (row : List Word) (forms : List (List Byte)) (rows : List Row)
    (hd : d.Sized) (hcur : d.cur = 0) (hn : 0 < d.cfg.n) (hrow : row.length = d.cfg.n)
    (hforms : forms.length = row.length)
    (hform : ∀ (c : Nat) (hc : c < row.length), FormFor (d.withColumns row c) forms[c] (row[c].setWidth 31))
    (c : Nat) (hc : c ≤ d.cfg.n) :
    DecodesTo (forms.take c).flatten d rows (d.withColumns row c)
      (if c = d.cfg.n then rows ++ [outputRow d.cfg row] else rows) := by
  induction c with
  | zero =>
    rw [withColumns_zero d row hcur, if_neg hn.ne]
    exact .nil d rows
  | succ c ih =>
    have hlt : c < row.length := by omega
    have hcolumns := ih (by omega)
    rw [if_neg (by omega)] at hcolumns
    have hcolumn := DecodesTo.of_formFor (hform c hlt) rows
    rw [committed_withColumns d row c hd hrow hlt, collect_withColumns d row c rows hd hrow hlt] at hcolumn
    rw [List.take_succ_eq_append_getElem (hforms ▸ hlt), List.flatten_append, List.flatten_singleton]
    exact hcolumns.append hcolumn

/-- In step with the encoder, each form of a row carries the value of its column: a raw form to any decoder, a delta
form to one with the encoder's last value as its reference (R59 step 3, R88). -/
theorem formFor_rowForms (e : EncState) (d : DecState) (inputs : List Input) (row : List Word)
    (hsync : Synced { enc := e, dec := d, inputs := inputs }) (hrow : RowOk e.cfg.n row) (c : Nat)
    (hc : c < row.length) (hcf : c < (rowForms e row).length) :
    FormFor (d.withColumns row c) (rowForms e row)[c] (row[c].setWidth 31) := by
  have hn : d.cfg.n = e.cfg.n := hsync.same_columns
  have hvariant : d.cfg.variant = e.cfg.variant := hsync.same_variant
  have hw : row[c].toNat = (row[c].setWidth 31).toNat := by
    rw [BitVec.toNat_setWidth, Nat.mod_eq_of_lt (hrow.2 _ (List.getElem_mem hc))]
  by_cases hforced : forcedRaw e = true
  · simp only [rowForms_of_forced row hforced, List.getElem_map, hw]
    exact formFor_emitRaw _ _
  · have hfirst : ¬e.first = true := fun h => hforced ((forcedRaw_iff e).2 (.inl h))
    obtain ⟨hlast, hrefs⟩ : d.last = e.last ∧ ∀ c < d.cfg.n, hasReference d c = true :=
      hsync.references.resolve_left hfirst
    obtain ⟨hcurlast, hcurref⟩ := current_withColumns d row c (hn ▸ hrow.1) hc
    simp only [rowForms_of_not_forced row hforced, List.getElem_zipWith, hw, ← hvariant]
    refine formFor_encodeDelta (d.withColumns row c) _ _ ?_ ?_
    · rw [hcurref]
      exact hrefs c (by rw [hn, ← hrow.1]; exact hc)
    · rw [hcurlast, lastValue, hlast, List.getD_eq_getElem?_getD, List.getElem?_eq_getElem, Option.getD_some]

end Sys2Proof.Machine
end

/-! ## The round trip (R75, R88) -/

section
namespace Sys2Proof.Machine

/-- One byte string stored after another. -/
theorem writeBytes_append (m : Memory) (a : Nat) (f g : List Byte) :
    (m.writeBytes a f).writeBytes (a + f.length) g = m.writeBytes a (f ++ g) := by
  have h := congrArg Prod.fst (appendForms_eq [f, g] m a)
  rwa [List.flatten_cons, List.flatten_singleton] at h

/-- Rows written from `s` to `t` append the bytes `bs` to `BUF`, and these lead a decoder that is in step from `d` to
`e`, with the rows as it shows them, and in step again. -/
structure RowsCarried (rows : List (List Word)) (s t : State) (bs : List Byte) (d e : DecState) : Prop where
  dec : t.dec = s.dec
  buf : t.enc.buf = s.enc.buf.writeBytes s.enc.bufLen bs
  bufLen : t.enc.bufLen = s.enc.bufLen + bs.length
  decodes : ∀ done, DecodesTo bs d done e (done ++ rows.map (outputRow d.cfg))
  synced : Synced { t with dec := e }
  first : t.enc.first = true → s.enc.first = true ∧ rows = []

theorem RowsCarried.nil (s : State) (d : DecState) (hsync : Synced { s with dec := d }) :
    RowsCarried [] s s [] d d where
  dec := rfl
  buf := rfl
  bufLen := rfl
  decodes done := by
    rw [List.map_nil, List.append_nil]
    exact .nil d done
  synced := hsync
  first h := ⟨h, rfl⟩

theorem RowsCarried.append {rows more : List (List Word)} {s t u : State} {bs cs : List Byte} {d e g : DecState}
    (h : RowsCarried rows s t bs d e) (k : RowsCarried more t u cs e g) :
    RowsCarried (rows ++ more) s u (bs ++ cs) d g where
  dec := k.dec.trans h.dec
  buf := by rw [k.buf, h.buf, h.bufLen, writeBytes_append]
  bufLen := by rw [k.bufLen, h.bufLen, List.length_append, Nat.add_assoc]
  decodes done := by
    obtain ⟨hcfg, -, -⟩ := (h.decodes done).frame
    have hmore := k.decodes (done ++ rows.map (outputRow d.cfg))
    rw [hcfg, List.append_assoc, ← List.map_append] at hmore
    exact (h.decodes done).append hmore
  synced := k.synced
  first hu := by
    obtain ⟨ht, rfl⟩ := k.first hu
    obtain ⟨hs, rfl⟩ := h.first ht
    exact ⟨hs, rfl⟩

/-- A row that is accepted is carried (R59, R88). -/
theorem acceptRow_carried (s : State) (d : DecState) (row : List Word) (rsp : Option Response) (hinv : s.enc.Inv)
    (hd : d.Sized) (hsync : Synced { s with dec := d }) (hrow : RowOk s.enc.cfg.n row) :
    RowsCarried [row] s { s with enc := { s.enc.acceptRow row (rowForms s.enc row) with rsp := rsp } }
      (rowForms s.enc row).flatten d (d.withColumns row d.cfg.n) := by
  have hn : d.cfg.n = s.enc.cfg.n := hsync.same_columns
  have hlen : row.length = d.cfg.n := hrow.1.trans hn.symm
  have hforms := length_rowForms s.enc row hinv.last_length hrow.1
  obtain ⟨hbuf, hbufLen⟩ := acceptRow_buffer row (rowForms s.enc row) s.enc
  constructor
  case dec => rfl
  case buf => exact hbuf
  case bufLen => exact hbufLen
  case decodes =>
    intro done
    have hcolumns := columns_decodesTo d row (rowForms s.enc row) done hd hsync.boundary (hn ▸ hinv.valid.1) hlen
      (hforms.trans hrow.1.symm) (fun c hc => formFor_rowForms s.enc d s.inputs row hsync hrow c hc _) d.cfg.n le_rfl
    rwa [if_pos rfl, hn, ← hforms, List.take_length, hforms, ← hn] at hcolumns
  case synced =>
    rw [withColumns_all d row hd hlen]
    refine ⟨hsync.same_variant, hsync.same_columns, hsync.no_fault, hsync.idle, rfl, .inr ⟨rfl, fun c hc => ?_⟩⟩
    simp only [hasReference, List.getD_eq_getElem?_getD]
    rw [List.getElem?_replicate_of_lt hc, Option.getD_some]
  case first => exact nofun

/-- Rows of values in range that fit, whatever their forms, are all accepted and carried (R88). -/
theorem writeRows_carried (rows : List (List Word)) (s : State) (d : DecState) (hinv : s.enc.Inv) (hd : d.Sized)
    (hsync : Synced { s with dec := d }) (hrows : ∀ row ∈ rows, RowOk s.enc.cfg.n row)
    (hcap : ∀ c, s.enc.cfg.bufCap = some c → s.enc.bufLen + 4 * s.enc.cfg.n * rows.length ≤ c) :
    ∃ t bs e, writeRows rows s = .next t ∧ RowsCarried rows s t bs d e := by
  induction rows generalizing s d with
  | nil => exact ⟨s, [], d, rfl, .nil s d hsync⟩
  | cons row rows ih =>
    obtain ⟨hrow, hrows⟩ := List.forall_mem_cons.1 hrows
    obtain ⟨-, hbytes⟩ := formsLength_rowForms s.enc row hinv.last_length hrow.1
    obtain ⟨-, hbufLen⟩ := acceptRow_buffer row (rowForms s.enc row) s.enc
    have hlen : row.length = d.cfg.n := hrow.1.trans (Eq.symm hsync.same_columns)
    have hroom (c : Nat) (hc : s.enc.cfg.bufCap = some c) :
        s.enc.bufLen + formsLength (rowForms s.enc row) + 4 * s.enc.cfg.n * rows.length ≤ c := by
      have hall := hcap c hc
      rw [List.length_cons, Nat.mul_succ] at hall
      omega
    have hfit : overflows s.enc.cfg.bufCap (s.enc.bufLen + formsLength (rowForms s.enc row)) = false :=
      (overflows_eq_false_iff _ _).2 fun c hc => (Nat.le_add_right _ _).trans (hroom c hc)
    have hcarried :=
      acceptRow_carried s d row (some { status := .ok, info := .nothing, rows := [] }) hinv hd hsync hrow
    obtain ⟨t, bs, e, hexec, hrest⟩ := ih _ (d.withColumns row d.cfg.n)
      ((acceptRow_inv s.enc row hinv hrow.1 hfit).answer _) (sized_withColumns_all d row hd hlen) hcarried.synced hrows
      fun c hc => hbufLen ▸ hroom c hc
    refine ⟨t, _, e, ?_, hcarried.append hrest⟩
    rw [writeRows, exec_writeRow_of_fits row s hrow.2 hfit]
    exact hexec

/-- The bytes just stored are read back. -/
theorem readBytes_writeBytes (m : Memory) (a : Nat) (bs : List Byte) :
    (m.writeBytes a bs).readBytes a bs.length = some bs := by
  rw [Memory.readBytes_eq_some]
  refine ⟨rfl, fun i hi => ?_⟩
  rw [Memory.read_writeBytes, if_pos (by omega), Nat.add_sub_cancel_left]

/-- Settles O49: the bytes appended are read back, and as one chunk they decode to the rows. -/
theorem writtenRowsDecompressToThemselves : Obligations.WrittenRowsDecompressToThemselves := by
  intro s rows hinv hsync hrows hcap
  have hsized : s.dec.Sized := ⟨hinv.dec.last_length, hinv.dec.valid_length, hinv.dec.acc_length⟩
  obtain ⟨t, bs, e, hexec, hcarried⟩ := writeRows_carried rows s s.dec hinv.enc hsized hsync hrows hcap
  have hsynced := hcarried.synced
  have hdecodes := hcarried.decodes []
  have hrun : decompressAll bs t =
      .next { t with dec := e.ended (0 + bs.length) (rows.map (outputRow s.dec.cfg)), inputs := [] } := by
    rw [decompressAll_eq_loop bs t (by rw [hcarried.dec, hsync.idle]) (by rw [hcarried.dec, hsync.no_fault]),
      hcarried.dec, hdecodes.decompressLoop_eq bs.length 0 le_rfl, List.nil_append]
  rw [ended_of_boundary e _ _ hsynced.boundary, Nat.zero_add, List.length_map, hdecodes.frame.1] at hrun
  refine ⟨t, bs, _, hexec, ?_, hrun, rfl, rfl, ?_, fun hne => ?_, rfl, rfl⟩
  · rw [hcarried.buf, hcarried.bufLen, Nat.add_sub_cancel_left, readBytes_writeBytes]
  · exact ⟨hsynced.same_variant, hsynced.same_columns, hsynced.no_fault, hsynced.idle, hsynced.boundary,
      hsynced.references⟩
  · have hlater : ¬t.enc.first = true := fun h => hne (hcarried.first h).2
    exact (hsynced.references.resolve_left hlater).1

end Sys2Proof.Machine
end

/-! # Proofs: the host operations (spec/42_host_ops.md)

What the host commands do, `WRITE_ROW` and an accepted `DECOMPRESS` aside: all but `E_RESET` read registers or the
buffer, or are refused, and change nothing but the block's answer. -/

/-! ## Commands that only answer (R89, R117) -/

section
namespace Sys2Proof.Machine

/-- Answering at the encoder's port changes nothing else. -/
theorem encoderAnswers_respond (st : Status) (info : Info) (s : State) :
    EncoderAnswers st info s (s.respond .encoder st info []) := rfl

/-- Answering at the decoder's port changes nothing else. -/
theorem decoderAnswers_respond (st : Status) (info : Info) (s : State) :
    DecoderAnswers st info s (s.respond .decoder st info []) := rfl

end Sys2Proof.Machine
end

/-! ## The encoder's buffer is read (R91) -/

section
namespace Sys2Proof.Machine

theorem exec_getData_of_readBytes (s : State) (bs : List Byte) (h : s.enc.buf.readBytes 0 s.enc.bufLen = some bs) :
    exec .getData s = .next (s.respond .encoder .ok (.data bs) []) := by
  change execGetData s = _
  rw [execGetData, h]

/-- Settles O20: the buffer is dense up to `BUF_LEN`, so `MemRead` succeeds, and it answers byte by byte. -/
theorem getDataReturnsTheBuffer : Obligations.GetDataReturnsTheBuffer := by
  intro s hinv
  obtain ⟨bs, hbs⟩ := Memory.readBytes_isSome s.enc.buf s.enc.bufLen 0 s.enc.bufLen hinv.buf_dense (Nat.zero_add _).le
  obtain ⟨hlen, hread⟩ := (Memory.readBytes_eq_some _ _ _ _).1 hbs
  refine ⟨bs, _, exec_getData_of_readBytes s bs hbs, encoderAnswers_respond _ _ s, hlen, fun i hi => ?_⟩
  rw [← hread i hi, Nat.zero_add]

end Sys2Proof.Machine
end

/-! ## The encoder's reset and metrics (R90, R92 to R95) -/

section
namespace Sys2Proof.Machine

/-- `E_RESET` is the encoder's reset and the answer `OK` (R90). -/
theorem exec_eReset (s : State) :
    exec .eReset s = .next (State.respond .encoder .ok .nothing [] { s with enc := EncState.reset s.enc.cfg }) := rfl

/-- Settles O19: the reset state is that of R126, whose `E_FIRST` forces the next row. -/
theorem encoderResetCommand : Obligations.EncoderResetCommand :=
  fun s => ⟨_, exec_eReset s, rfl, (forcedRaw_iff _).2 (.inl rfl)⟩

/-- A row takes at least one byte a column, a quarter of its uncompressed size (R21, R92). -/
theorem uncompressedSize_le {e : EncState} (h : e.Inv) : uncompressedSize e ≤ 4 * e.bufLen :=
  calc uncompressedSize e = 4 * (e.cfg.n * e.rows) := by unfold uncompressedSize; ring
    _ ≤ 4 * e.bufLen := Nat.mul_le_mul_left 4 h.len_ge

/-- Settles O21: both commands answer a number read off the registers. -/
theorem encoderSizesAnswer : Obligations.EncoderSizesAnswer :=
  fun s => ⟨⟨_, rfl, encoderAnswers_respond _ _ s⟩, ⟨_, rfl, encoderAnswers_respond _ _ s⟩, uncompressedSize_le⟩

theorem exec_getRatio_of_empty (s : State) (h : s.enc.bufLen = 0) :
    exec .getRatio s = .next (s.respond .encoder .metricUndefined .nothing []) :=
  if_pos h

theorem exec_getRatio_of_nonempty (s : State) (h : s.enc.bufLen ≠ 0) :
    exec .getRatio s = .next (s.respond .encoder .ok (.pair (uncompressedSize s.enc) s.enc.bufLen) []) :=
  if_neg h

/-- Settles O22: the two cases are those of `BUF_LEN`, and the encoder's fault only answers. -/
theorem encoderRatioAnswers : Obligations.EncoderRatioAnswers :=
  fun s => ⟨fun hne => ⟨_, exec_getRatio_of_nonempty s hne, encoderAnswers_respond _ _ s⟩,
    fun h0 => ⟨_, exec_getRatio_of_empty s h0, encoderAnswers_respond _ _ s⟩⟩

end Sys2Proof.Machine
end

/-! ## The decoder's metrics and status (R96 to R99) -/

section
namespace Sys2Proof.Machine

/-- Settles O32: each command answers a register, whatever `D_FAULT` holds. -/
theorem decoderSizesAndStatusAnswer : Obligations.DecoderSizesAndStatusAnswer :=
  fun s => ⟨⟨_, rfl, decoderAnswers_respond _ _ s⟩, ⟨_, rfl, decoderAnswers_respond _ _ s⟩,
    ⟨_, rfl, decoderAnswers_respond _ _ s⟩⟩

/-- `MetricUndefined` is not sticky, so it latches nothing (R106, R109). -/
theorem exec_dGetRatio_of_zero (s : State) (h : s.dec.comp = 0) :
    exec .dGetRatio s = .next (s.respond .decoder .metricUndefined .nothing []) := by
  change execDGetRatio s = _
  rw [execDGetRatio, if_pos h, takeFault_decoder_plain _ s rfl]

theorem exec_dGetRatio_of_nonzero (s : State) (h : s.dec.comp ≠ 0) :
    exec .dGetRatio s = .next (s.respond .decoder .ok (.pair s.dec.uncomp s.dec.comp) []) :=
  if_neg h

/-- Settles O33: the two cases are those of `D_COMP`, and a fault that is not sticky only answers. -/
theorem decoderRatioAnswers : Obligations.DecoderRatioAnswers :=
  fun s => ⟨fun hne => ⟨_, exec_dGetRatio_of_nonzero s hne, decoderAnswers_respond _ _ s⟩,
    fun h0 => ⟨_, exec_dGetRatio_of_zero s h0, decoderAnswers_respond _ _ s⟩⟩

end Sys2Proof.Machine
end

/-! ## Commands that are refused (R89, R100, R115) -/

section
namespace Sys2Proof.Machine

/-- `Refused` is not sticky: an undefined code only gets its answer, at either block (R106, R115). -/
theorem refuseCommand_eq (b : Block) (s : State) : s.refuseCommand b = s.respond b .refused .nothing [] := by
  cases b with
  | encoder => exact takeFault_encoder _ s
  | decoder => exact takeFault_decoder_plain _ s rfl

/-- A command whose block is free and whose code is undefined is taken from the inputs and refused (R89). -/
theorem step_of_undefined_command (s : State) (c : Command) (rest : List Input) (e : DecodeError)
    (hin : s.inputs = .command c :: rest) (hfree : c.block = .decoder → s.dec.active = none)
    (he : decodeCommand s.enc.cfg.n c = .error e) :
    step s = .next (State.respond c.block .refused .nothing [] { s with inputs := rest }) := by
  have hbusy : busy c.block s = false := (busy_eq_false_iff _ s).2 hfree
  simp only [step_eq_run, fetch, hin, hbusy, Bool.false_eq_true, if_false, fetchCommand, he, Fetched.run,
    refuseCommand_eq]

/-- The encoder has no command 6 or 7 (R89). -/
theorem decodeCommand_encoder_undefined (n : Nat) (c : Command) (hblock : c.block = .encoder)
    (hop : c.op ∈ [6#3, 7#3]) : decodeCommand n c = .error (.undefinedCommand .encoder c.op) := by
  simp only [List.mem_cons, List.not_mem_nil, or_false] at hop
  rw [decodeCommand, hblock]
  obtain hop | hop := hop <;> simp [decodeEncoderCommand, hop]

/-- The decoder has no command 1, 2 or 7 (R89). -/
theorem decodeCommand_decoder_undefined (n : Nat) (c : Command) (hblock : c.block = .decoder)
    (hop : c.op ∈ [1#3, 2#3, 7#3]) : decodeCommand n c = .error (.undefinedCommand .decoder c.op) := by
  simp only [List.mem_cons, List.not_mem_nil, or_false] at hop
  rw [decodeCommand, hblock]
  obtain hop | hop | hop := hop <;> simp [decodeDecoderCommand, hop]

/-- Settles O25: a latched fault refuses the chunk, and a code that does not decode is refused at its own block. -/
theorem refusedCommandsChangeNothing : Obligations.RefusedCommandsChangeNothing := by
  refine ⟨fun s chunk hfault => ?_, fun s c rest hin hblock hop => ?_, fun s c rest hin hblock hidle hop => ?_⟩
  · exact ⟨_, exec_decompress_of_fault chunk s hfault, decoderAnswers_respond _ _ s⟩
  · have hstep := step_of_undefined_command s c rest _ hin (fun h => nomatch hblock.symm.trans h)
      (decodeCommand_encoder_undefined _ c hblock hop)
    rw [hblock] at hstep
    exact ⟨_, _, hstep, encoderAnswers_respond _ _ _⟩
  · have hstep := step_of_undefined_command s c rest _ hin (fun _ => hidle)
      (decodeCommand_decoder_undefined _ c hblock hop)
    rw [hblock] at hstep
    exact ⟨_, _, hstep, decoderAnswers_respond _ _ _⟩

end Sys2Proof.Machine
end

/-! # Proofs: the signed mapping (spec/43_signed_mapping.md)

The signed value that comes back through a column in `SIGNED`, and that re-signing reaches nothing but what is shown:
two machines that differ in it alone are put through each operation, each instruction and each fetch together. -/

/-! ## A signed value through a column (R101 to R103) -/

section
namespace Sys2Proof.Machine

/-- The producer's image of a signed value is a column value and loses nothing there (R101). -/
theorem toNat_ofInt_unsignify {k : Nat} {x : Int} (h : Signifiable k x) :
    ((BitVec.ofInt 31 (unsignify k x)).toNat : Int) = unsignify k x := by
  obtain ⟨hnonneg, hlt⟩ := h
  rw [BitVec.toNat_ofInt, Int.toNat_of_nonneg (Int.emod_nonneg _ (by decide))]
  exact Int.emod_eq_of_lt hnonneg hlt

/-- Settles O35: the column value is exactly the unsigned image, from which `resignify` and the output word both
subtract the offset again. -/
theorem signedColumnShowsTheProducersValue : Obligations.SignedColumnShowsTheProducersValue := by
  intro cfg c x hcfg hc hx
  have hvalue := toNat_ofInt_unsignify hx
  have hword := (outputWordIsTheResignedValue cfg c (BitVec.ofInt 31 (unsignify cfg.signOffset x)) hcfg).1 hc
  have hinverse : unsignify cfg.signOffset x - cfg.signOffset = x := Int.add_sub_cancel x _
  rw [hword, resignify, hvalue]
  exact ⟨hinverse, hinverse⟩

end Sys2Proof.Machine
end

/-! ## Machines that differ in re-signing only: the shared operations (R104, R105) -/

section
namespace Sys2Proof.Machine

variable {s s' : State}

/-- The encoder and the inputs may change alike. -/
theorem SameButResigning.withEnc (h : SameButResigning s s') (e : EncState) :
    SameButResigning { s with enc := e } { s' with enc := e } :=
  { h with enc := rfl }

theorem SameButResigning.withInputs (h : SameButResigning s s') (l : List Input) :
    SameButResigning { s with inputs := l } { s' with inputs := l } :=
  { h with inputs := rfl }

theorem SameButResigning.respond_encoder (h : SameButResigning s s') (st : Status) (info : Info) (rows : List Row) :
    SameButResigning (s.respond .encoder st info rows) (s'.respond .encoder st info rows) :=
  { h with enc := congrArg (fun e => { e with rsp := some ⟨st, info, rows⟩ }) h.enc }

/-- The decoder's answer is shown to the host only, so the two answers are free. -/
theorem SameButResigning.respond_decoder (h : SameButResigning s s') (st st' : Status) (info info' : Info)
    (rows rows' : List Row) :
    SameButResigning (s.respond .decoder st info rows) (s'.respond .decoder st' info' rows') :=
  { h with enc := h.enc }

theorem SameButResigning.latch (h : SameButResigning s s') (st : Status) :
    SameButResigning { s with dec := s.dec.latch st } { s' with dec := s'.dec.latch st } :=
  { h with fault := rfl, active := .inl ⟨rfl, rfl⟩ }

theorem SameButResigning.takeFault (h : SameButResigning s s') (b : Block) (f : FaultReport) :
    SameButResigning (s.takeFault b f) (s'.takeFault b f) := by
  cases b with
  | encoder => exact h.respond_encoder ..
  | decoder =>
    cases hf : sticky f.status with
    | false =>
      rw [takeFault_decoder_plain f s hf, takeFault_decoder_plain f s' hf]
      exact h.respond_decoder ..
    | true =>
      rw [State.takeFault, State.takeFault, if_pos hf, if_pos hf]
      exact (h.latch f.status).respond_decoder ..

/-- The reset state is built from the number of columns; `SIGNED` and `SIGN_OFFSET` are only kept (R128). -/
theorem SameButResigning.hardwareReset (h : SameButResigning s s') (b : Block) :
    SameButResigning (s.hardwareReset b) (s'.hardwareReset b) := by
  cases b with
  | encoder => exact { h with enc := congrArg (fun e : EncState => EncState.reset e.cfg) h.enc }
  | decoder =>
    exact { h with
      last := congrArg (List.replicate · 0) h.columns
      valid := congrArg (List.replicate · false) h.columns
      cur := rfl
      fault := rfl
      comp := rfl
      uncomp := rfl
      active := .inl ⟨rfl, rfl⟩ }

theorem SameButResigning.beginDecompress (h : SameButResigning s s') (chunk : List Byte) :
    SameButResigning (s.beginDecompress chunk) (s'.beginDecompress chunk) :=
  { h with active := .inr ⟨_, _, rfl, rfl, rfl, rfl, rfl, rfl⟩ }

theorem Decoding.SameParse.advance {a a' : Decoding} (h : a.SameParse a') (len cur : Nat) (acc acc' : Row) :
    (a.advance len cur acc).SameParse (a'.advance len cur acc') where
  chunk := h.chunk
  len := h.len
  pos := congrArg (· + len) h.pos
  rows := by
    rw [advance_rows, advance_rows]
    split <;> simp [h.rows]

/-- The crux of R105: a commit re-signs into `D_ROWACC` only, so the references, the cursor and the position agree
afterwards. -/
theorem SameButResigning.commit (h : SameButResigning s s') {a a' : Decoding} (ha : a.SameParse a') (v : Value)
    (len : Nat) : SameButResigning (s.commit v len a) (s'.commit v len a') := by
  have hcur : nextColumn s.dec.cfg.n s.dec.cur = nextColumn s'.dec.cfg.n s'.dec.cur := by rw [h.columns, h.cur]
  exact { h with
    last := by rw [commit_last, commit_last, h.last, h.cur]
    valid := by rw [commit_valid, commit_valid, h.valid, h.cur]
    cur := hcur
    active := .inr ⟨_, _, rfl, rfl, hcur ▸ ha.advance len _ _ _⟩ }

theorem SameButResigning.finishDecompress (h : SameButResigning s s') {a a' : Decoding} (ha : a.SameParse a') :
    SameButResigning (s.finishDecompress a) (s'.finishDecompress a') :=
  { h with
    comp := ha.len
    uncomp := by rw [finish_uncomp, finish_uncomp, ha.rows, h.columns]
    active := .inl ⟨rfl, rfl⟩ }

theorem SameButResigning.truncated (h : SameButResigning s s') {a a' : Decoding} (ha : a.SameParse a') :
    SameButResigning (s.truncated a) (s'.truncated a') := by
  rw [State.truncated, State.truncated, ha.pos, h.cur]
  exact h.takeFault ..

theorem SameButResigning.endOfChunk (h : SameButResigning s s') {a a' : Decoding} (ha : a.SameParse a') :
    SameButResigning (s.endOfChunk a) (s'.endOfChunk a') := by
  rw [State.endOfChunk, State.endOfChunk, h.cur]
  split
  · exact h.finishDecompress ha
  · exact h.truncated ha

end Sys2Proof.Machine
end

/-! ## The same instruction on both machines -/

section
namespace Sys2Proof.Machine

variable {s s' : State}

/-- Two outcomes of one kind: next states that differ in re-signing only, or the same reason to stop. -/
inductive SameOutcome : Host.Outcome State Fault Refusal → Host.Outcome State Fault Refusal → Prop where
  | next {t t' : State} (same : SameButResigning t t') : SameOutcome (.next t) (.next t')
  | fault (r : Fault) : SameOutcome (.fault r) (.fault r)
  | refused (r : Refusal) : SameOutcome (.refused r) (.refused r)

theorem execWriteRow_sameOutcome (h : SameButResigning s s') (row : List Word) :
    SameOutcome (execWriteRow row s) (execWriteRow row s') := by
  unfold execWriteRow
  rw [h.enc]
  split
  · exact .next (h.takeFault ..)
  · split
    · exact .next (h.takeFault ..)
    · exact .next ((h.withEnc _).respond_encoder ..)

theorem execGetData_sameOutcome (h : SameButResigning s s') : SameOutcome (execGetData s) (execGetData s') := by
  unfold execGetData
  rw [h.enc]
  split
  · exact .next (h.respond_encoder ..)
  · exact .fault _

theorem execGetRatio_sameOutcome (h : SameButResigning s s') :
    SameOutcome (execGetRatio s) (execGetRatio s') := by
  unfold execGetRatio
  rw [h.enc]
  split
  · exact .next (h.takeFault ..)
  · exact .next (h.respond_encoder ..)

theorem execDecompress_sameOutcome (h : SameButResigning s s') (chunk : List Byte) :
    SameOutcome (execDecompress chunk s) (execDecompress chunk s') := by
  unfold execDecompress
  rw [h.fault]
  split
  · exact .next (h.beginDecompress chunk)
  · exact .next (h.takeFault ..)

theorem execDGetRatio_sameOutcome (h : SameButResigning s s') :
    SameOutcome (execDGetRatio s) (execDGetRatio s') := by
  unfold execDGetRatio
  rw [h.comp]
  split
  · exact .next (h.takeFault ..)
  · exact .next (h.respond_decoder ..)

/-- `ApplyDelta` reads the references and the cursor, and nothing that re-signing touches (R83, R105). -/
theorem SameButResigning.applyDelta_eq (h : SameButResigning s s') (sg : Bool) (mag : Nat) :
    applyDelta sg mag s.dec = applyDelta sg mag s'.dec := by
  have href : hasReference s.dec s.dec.cur = hasReference s'.dec s'.dec.cur := by
    rw [hasReference, hasReference, h.valid, h.cur]
  have hlast : lastValue s.dec s.dec.cur = lastValue s'.dec s'.dec.cur := by
    rw [lastValue, lastValue, h.last, h.cur]
  rw [applyDelta, applyDelta, href, hlast, h.cur]

theorem SameButResigning.computedValue_eq (h : SameButResigning s s') (i : Instr) :
    computedValue i s.dec = computedValue i s'.dec := by
  cases i with
  | v1d3 | v2d2 | v2d3 | v3d1 | v3d2 | v3d3 => exact congrArg some (h.applyDelta_eq ..)
  | _ => rfl

theorem executeForm_sameOutcome (h : SameButResigning s s') (len : Nat) (value : Except FaultReport Value) :
    SameOutcome (executeForm len value s) (executeForm len value s') := by
  unfold executeForm
  obtain ⟨ha, ha'⟩ | ⟨a, a', ha, ha', hparse⟩ := h.active <;> rw [ha, ha']
  · exact .refused _
  · cases value with
    | ok v => exact .next (h.commit hparse v len)
    | error f => exact .next (h.takeFault ..)

/-- A wire form computes the same value, or raises the same fault, on both machines. -/
theorem exec_form_sameOutcome (h : SameButResigning s s') (i : Instr) (f : Form) (hf : formOf i = some f) :
    SameOutcome (exec i s) (exec i s') := by
  have ⟨value, hv⟩ : ∃ value, computedValue i s.dec = some value := by
    cases i <;> cases hf <;> exact ⟨_, rfl⟩
  rw [exec_of_computedValue i f s value hf hv, exec_of_computedValue i f s' value hf (h.computedValue_eq i ▸ hv)]
  exact executeForm_sameOutcome h _ value

theorem exec_command_sameOutcome (h : SameButResigning s s') (i : Instr) (hf : formOf i = none) :
    SameOutcome (exec i s) (exec i s') := by
  cases i with
  | writeRow row => exact execWriteRow_sameOutcome h row
  | eReset => exact .next ((h.hardwareReset .encoder).respond_encoder ..)
  | getData => exact execGetData_sameOutcome h
  | getUsize | getCsize =>
    simp only [exec, execGetUsize, execGetCsize, h.enc]
    exact .next (h.respond_encoder ..)
  | getRatio => exact execGetRatio_sameOutcome h
  | decompress chunk => exact execDecompress_sameOutcome h chunk
  | dGetUsize | dGetCsize | dGetStatus => exact .next (h.respond_decoder ..)
  | dGetRatio => exact execDGetRatio_sameOutcome h
  | raw | v1d3 | v2d2 | v2d3 | v3d1 | v3d2 | v3d3 => cases hf

theorem exec_sameOutcome (h : SameButResigning s s') (i : Instr) : SameOutcome (exec i s) (exec i s') := by
  cases hf : formOf i with
  | some f => exact exec_form_sameOutcome h i f hf
  | none => exact exec_command_sameOutcome h i hf

end Sys2Proof.Machine
end

/-! ## The same fetch on both machines -/

section
namespace Sys2Proof.Machine

variable {s s' : State}

/-- Two fetches that find the same to do, at states that differ in re-signing only. -/
inductive SameFetched : Fetched → Fetched → Prop where
  | instr (i : Instr) {t t' : State} (same : SameButResigning t t') : SameFetched (.instr i t) (.instr i t')
  | event {t t' : State} (same : SameButResigning t t') : SameFetched (.event t) (.event t')
  | absent (a : Nat) : SameFetched (.absent a) (.absent a)

theorem SameFetched.run {f f' : Fetched} (h : SameFetched f f') : SameOutcome f.run f'.run := by
  cases h with
  | instr i same => exact exec_sameOutcome same i
  | event same => exact .next same
  | absent a => exact .fault _

/-- The parse of a chunk reads its bytes, the position and `VARIANT` only (R53, R73). -/
theorem fetchForm_sameFetched (h : SameButResigning s s') {a a' : Decoding} (ha : a.SameParse a') :
    SameFetched (fetchForm a s) (fetchForm a' s') := by
  have hwindow : windowLength a = windowLength a' := by rw [windowLength, windowLength, ha.len, ha.pos]
  unfold fetchForm
  rw [hwindow, ha.chunk, ha.len, ha.pos, h.variant]
  split
  · exact .event (h.endOfChunk ha)
  · split
    · exact .absent _
    · split
      · exact .instr _ h
      · exact .event (h.truncated ha)

theorem fetchDecoder_sameFetched (h : SameButResigning s s') :
    SameFetched (fetchDecoder s) (fetchDecoder s') := by
  unfold fetchDecoder
  obtain ⟨ha, ha'⟩ | ⟨a, a', ha, ha', hparse⟩ := h.active <;> rw [ha, ha']
  · exact .event h
  · exact fetchForm_sameFetched h hparse

theorem SameButResigning.busy_eq (h : SameButResigning s s') (b : Block) : busy b s = busy b s' := by
  cases b with
  | encoder => rfl
  | decoder =>
    obtain ⟨ha, ha'⟩ | ⟨a, a', ha, ha', -⟩ := h.active <;> simp only [busy, ha, ha', Option.isSome_some]

theorem fetchCommand_sameFetched (h : SameButResigning s s') (c : Command) :
    SameFetched (fetchCommand c s) (fetchCommand c s') := by
  unfold fetchCommand
  rw [h.enc]
  split
  · exact .instr _ h
  · exact .event (h.takeFault ..)

theorem fetch_sameFetched (h : SameButResigning s s') : SameFetched (fetch s) (fetch s') := by
  unfold fetch
  rw [h.inputs]
  split
  · exact fetchDecoder_sameFetched h
  · exact fetchDecoder_sameFetched (h.withInputs _)
  · exact .event ((h.withInputs _).hardwareReset _)
  · rw [h.busy_eq]
    split
    · exact fetchDecoder_sameFetched h
    · exact fetchCommand_sameFetched (h.withInputs _) _

theorem step_sameOutcome (h : SameButResigning s s') : SameOutcome (step s) (step s') := by
  rw [step_eq_run, step_eq_run]
  exact (fetch_sameFetched h).run

end Sys2Proof.Machine
end

/-! ## Re-signing stays outside the delta chain (R104, R105) -/

section
namespace Sys2Proof.Machine

theorem SameOutcome.of_next {t : State} {o : Host.Outcome State Fault Refusal} (h : SameOutcome (.next t) o) :
    ∃ t', o = .next t' ∧ SameButResigning t t' := by
  cases h with
  | next same => exact ⟨_, rfl, same⟩

/-- Settles O51: both machines fetch the same and run it alike, so their outcomes are of one kind. -/
theorem resigningNeverReachesTheReferences : Obligations.ResigningNeverReachesTheReferences := by
  intro s s' t h hstep
  exact (hstep ▸ step_sameOutcome h).of_next

end Sys2Proof.Machine
end

/-! # Proofs: the exceptions (spec/60_exceptions.md)

Why nothing but a next state comes out of a step from the invariant: what the spec calls a fault is an answer, a form
runs only inside a `DECOMPRESS`, and both memories are dense. And the column that a rejected row is reported with. -/

/-! ## Every instruction completes (R40, R117) -/

section
namespace Sys2Proof.Machine

/-- Inside a `DECOMPRESS` a wire form commits or takes its fault, and both are next states (R73 step 2, R117). -/
theorem exec_form_completes (i : Instr) (f : Form) (s : State) (a : Decoding) (hf : formOf i = some f)
    (ha : s.dec.active = some a) : ∃ t, exec i s = .next t := by
  obtain ⟨value, hx, -⟩ := exec_form i f s hf
  rw [hx]
  obtain ⟨hidle, -⟩ | ⟨b, v, -, -, hy⟩ | ⟨b, e, -, -, hy⟩ := executeForm_cases (formLength f) value s
  · cases ha.symm.trans hidle
  · exact ⟨_, hy⟩
  · exact ⟨_, hy⟩

theorem exec_writeRow_completes (row : List Word) (s : State) : ∃ t, exec (.writeRow row) s = .next t := by
  obtain ⟨_, -, hx⟩ | ⟨-, -, hx⟩ | ⟨-, -, hx⟩ := execWriteRow_cases row s <;> exact ⟨_, hx⟩

theorem exec_getRatio_completes (s : State) : ∃ t, exec .getRatio s = .next t := by
  by_cases h : s.enc.bufLen = 0
  · exact ⟨_, exec_getRatio_of_empty s h⟩
  · exact ⟨_, exec_getRatio_of_nonempty s h⟩

theorem exec_decompress_completes (chunk : List Byte) (s : State) : ∃ t, exec (.decompress chunk) s = .next t := by
  by_cases h : s.dec.fault = 0
  · exact ⟨_, exec_decompress_of_no_fault chunk s h⟩
  · exact ⟨_, exec_decompress_of_fault chunk s h⟩

theorem exec_dGetRatio_completes (s : State) : ∃ t, exec .dGetRatio s = .next t := by
  by_cases h : s.dec.comp = 0
  · exact ⟨_, exec_dGetRatio_of_zero s h⟩
  · exact ⟨_, exec_dGetRatio_of_nonzero s h⟩

/-- A command completes: `GET_DATA` alone needs the invariant, for the bytes below `BUF_LEN` to be there (R35). -/
theorem exec_command_completes (i : Instr) (s : State) (hf : formOf i = none) (h : s.enc.Inv) :
    ∃ t, exec i s = .next t := by
  cases i with
  | writeRow row => exact exec_writeRow_completes row s
  | getData =>
    obtain ⟨_, t, hx, -⟩ := getDataReturnsTheBuffer s h
    exact ⟨t, hx⟩
  | getRatio => exact exec_getRatio_completes s
  | decompress chunk => exact exec_decompress_completes chunk s
  | dGetRatio => exact exec_dGetRatio_completes s
  | eReset | getUsize | getCsize | dGetUsize | dGetCsize | dGetStatus => exact ⟨_, rfl⟩
  | raw | v1d3 | v2d2 | v2d3 | v3d1 | v3d2 | v3d3 => cases hf

end Sys2Proof.Machine
end

/-! ## Every step completes (R40, R55, R117) -/

section
namespace Sys2Proof.Machine

/-- A turn of a running `DECOMPRESS` finds the bytes it looks at, and a form that decodes from them completes. -/
theorem fetchForm_completes (s : State) (a : Decoding) (ha : s.dec.active = some a) (h : s.dec.Inv) :
    ∃ t, (fetchForm a s).run = .next t := by
  obtain ⟨left, hrem⟩ := (h.active_inv a ha).exists_remaining
  obtain ⟨-, hx⟩ | ⟨-, bs, i, -, hd, hx⟩ | ⟨-, _, _, -, -, hx⟩ | ⟨-, habsent, -⟩ := fetchForm_cases s a
  · exact ⟨_, congrArg Fetched.run hx⟩
  · obtain ⟨_, _, -, hf, -⟩ := decodeForm_ok _ bs i hd
    rw [hx]
    exact exec_form_completes i _ s a hf ha
  · exact ⟨_, congrArg Fetched.run hx⟩
  · cases hrem.window.symm.trans habsent

theorem fetchDecoder_completes (s : State) (h : s.dec.Inv) : ∃ t, (fetchDecoder s).run = .next t := by
  unfold fetchDecoder
  split
  · exact ⟨s, rfl⟩
  · exact fetchForm_completes s _ ‹_› h

/-- A command that decodes is no form, so it completes; a code that does not is refused by an answer (R89). -/
theorem fetchCommand_completes (c : Command) (s : State) (h : s.enc.Inv) : ∃ t, (fetchCommand c s).run = .next t := by
  unfold fetchCommand
  split
  · rename_i i hd
    obtain ⟨hf, -⟩ := decodeCommand_ok .v1 _ c i hd
    exact exec_command_completes i s hf h
  · exact ⟨_, rfl⟩

/-- Settles O38: the dense memories exclude `absentByte`, and a form is fetched in a running `DECOMPRESS` only. -/
theorem everyStepFromTheInvariantCompletes : Obligations.EveryStepFromTheInvariantCompletes := by
  intro s hs
  rw [step_eq_run]
  obtain ⟨-, hx⟩ | ⟨rest, -, hx⟩ | ⟨b, rest, -, hx⟩ | ⟨_, _, -, -, hx⟩ | ⟨c, rest, -, -, hx⟩ := fetch_cases s
  all_goals rw [hx]
  · exact fetchDecoder_completes s hs.dec
  · exact fetchDecoder_completes { s with inputs := rest } hs.dec
  · exact ⟨_, rfl⟩
  · exact fetchDecoder_completes s hs.dec
  · exact fetchCommand_completes c { s with inputs := rest } hs.enc

end Sys2Proof.Machine
end

/-! ## The lowest column out of range (R60, R108) -/

section
namespace Sys2Proof.Machine

/-- The column reported is that of the first value of 2^31 or more, counted from `c` (R60). -/
theorem outOfRangeFrom_eq_some (c : Nat) (row : List Word) (j : Nat) (w : Word) (hw : row[j]? = some w)
    (hbad : 2 ^ 31 ≤ w.toNat) (hbelow : ∀ k u, k < j → row[k]? = some u → u.toNat < 2 ^ 31) :
    outOfRangeFrom c row = some (c + j) := by
  induction row generalizing c j with
  | nil => cases hw
  | cons v vs ih =>
    rw [outOfRangeFrom]
    cases j with
    | zero =>
      obtain rfl : v = w := Option.some.inj hw
      rw [if_pos hbad, Nat.add_zero]
    | succ j =>
      have hv : v.toNat < 2 ^ 31 := hbelow 0 v (Nat.succ_pos j) rfl
      rw [if_neg (Nat.not_le.2 hv), ih (c + 1) j hw fun k u hk hu => hbelow (k + 1) u (Nat.succ_lt_succ hk) hu,
        Nat.add_assoc, Nat.add_comm 1]

/-- Settles O14: the check of the row comes first and reports that column, and the encoder's fault only answers. -/
theorem writeRowRejectsLowestBadColumn : Obligations.WriteRowRejectsLowestBadColumn := by
  intro s row c w hw hbad hbelow
  have hcol : firstOutOfRange row = some c := by
    rw [firstOutOfRange, outOfRangeFrom_eq_some 0 row c w hw hbad hbelow, Nat.zero_add]
  obtain ⟨c', hc', hx⟩ | ⟨hok, -, -⟩ | ⟨hok, -, -⟩ := execWriteRow_cases row s
  · cases hcol.symm.trans hc'
    exact ⟨_, hx, encoderAnswers_respond _ _ s⟩
  · cases hcol.symm.trans hok
  · cases hcol.symm.trans hok

end Sys2Proof.Machine
end

/-! # Proofs: reset and hazards (spec/70_reset_and_hazards.md)

What the reset pin, construction and `E_RESET` leave, and what the operations answer there; that a machine with nothing
to do waits; and that a running `DECOMPRESS` ends, since each of its turns ends it or leaves fewer bytes. -/

/-! ## The step of a reset pulse and the step that waits (R125, R128) -/

section
namespace Sys2Proof.Machine

/-- A pulse of a reset pin is taken in any state, whatever runs (R125). -/
theorem step_of_reset_pulse (s : State) (b : Block) (rest : List Input) (hin : s.inputs = .rst b :: rest) :
    step s = .next (State.hardwareReset b { s with inputs := rest }) := by
  simp only [step_eq_run, fetch, hin, Fetched.run]

/-- Settles O41: the step is the pin of its block, and the pin replaces that block only. -/
theorem resetPinResetsItsBlockOnly : Obligations.ResetPinResetsItsBlockOnly :=
  fun s rest =>
    ⟨fun hin => ⟨_, step_of_reset_pulse s .encoder rest hin, rfl, rfl, rfl⟩,
      fun hin => ⟨_, step_of_reset_pulse s .decoder rest hin, rfl, rfl, rfl⟩⟩

/-- With no operation in progress the decoder's turn is to wait for a command (R125). -/
theorem fetchDecoder_of_waiting (s : State) (hidle : s.dec.active = none) : fetchDecoder s = .event s := by
  simp only [fetchDecoder, hidle]

/-- Settles O42: with nothing presented the step is the decoder's turn. -/
theorem machineWaitsForCommands : Obligations.MachineWaitsForCommands := by
  refine fun s hidle => ⟨fun hin => ?_, fun rest hin => ?_⟩
  · have hwait := fetchDecoder_of_waiting s hidle
    simp only [step_eq_run, fetch, hin, hwait, Fetched.run]
  · have hwait := fetchDecoder_of_waiting { s with inputs := rest } hidle
    simp only [step_eq_run, fetch, hin, hwait, Fetched.run]

end Sys2Proof.Machine
end

/-! ## The state after reset (R129) -/

section
namespace Sys2Proof.Machine

theorem resetWith_inv (ec : EncConfig) (dc : DecConfig) (hec : ec.Valid) (hdc : dc.Valid) :
    (State.resetWith ec dc).Inv :=
  ⟨encReset_inv ec hec, decReset_inv dc hdc⟩

/-- Settles O37: each block's reset state has its invariant, and the illustrative parameters are in their domain. -/
theorem resetHasTheInvariant : Obligations.ResetHasTheInvariant :=
  ⟨resetWith_inv, resetWith_inv _ _ (by decide) (by decide)⟩

/-- Settles O48: `E_FIRST` is set, so the references need not agree. -/
theorem freshPairIsSynced : Obligations.FreshPairIsSynced :=
  fun _ _ hvariant hcolumns =>
    { same_variant := hvariant
      same_columns := hcolumns
      no_fault := rfl
      idle := rfl
      boundary := rfl
      references := .inl rfl }

end Sys2Proof.Machine
end

/-! ## The reset states and what is answered in them (R126, R127) -/

section
namespace Sys2Proof.Machine

/-- Construction, the reset pin and `E_RESET` all lead to the encoder's reset state; `E_RESET` has answered (R126). -/
theorem enc_eq_reset_of_origin (ec : EncConfig) (s : State)
    (h : (∃ dc, s = State.resetWith ec dc) ∨
      (∃ p rest, p.enc.cfg = ec ∧ p.inputs = .rst .encoder :: rest ∧ step p = .next s) ∨
      (∃ p, p.enc.cfg = ec ∧ exec .eReset p = .next s)) :
    ∃ r, s.enc = { EncState.reset ec with rsp := r } := by
  obtain ⟨dc, rfl⟩ | ⟨p, rest, rfl, hin, hstep⟩ | ⟨p, rfl, hexec⟩ := h
  · exact ⟨none, rfl⟩
  · cases (step_of_reset_pulse p .encoder rest hin).symm.trans hstep
    exact ⟨none, rfl⟩
  · cases (exec_eReset p).symm.trans hexec
    exact ⟨_, rfl⟩

/-- Settles O39: with no row written and `BUF` empty the commands answer as they do in any state. -/
theorem encoderResetState : Obligations.EncoderResetState := by
  intro ec s h
  obtain ⟨r, hreset⟩ := enc_eq_reset_of_origin ec s h
  have hlen : s.enc.bufLen = 0 := by rw [hreset]; rfl
  have husize : s.enc.rows * s.enc.cfg.n * 4 = 0 := by rw [hreset]; simp
  have hdata : s.enc.buf.readBytes 0 s.enc.bufLen = some [] := by rw [hlen]; rfl
  obtain ⟨hgetUsize, hgetCsize, -⟩ := encoderSizesAnswer s
  rw [husize] at hgetUsize
  rw [hlen] at hgetCsize
  have hgetRatio := (encoderRatioAnswers s).2 hlen
  have hgetData := exec_getData_of_readBytes s [] hdata
  refine ⟨?_, ?_, ?_, ?_, ?_, ?_, hlen, hgetUsize, hgetCsize, hgetRatio, _, hgetData, encoderAnswers_respond _ _ s⟩
  all_goals rw [hreset]; rfl

/-- Construction and the reset pin both lead to the decoder's reset state (R127). -/
theorem dec_eq_reset_of_origin (dc : DecConfig) (s : State)
    (h : (∃ ec, s = State.resetWith ec dc) ∨
      (∃ p rest, p.dec.cfg = dc ∧ p.inputs = .rst .decoder :: rest ∧ step p = .next s)) :
    s.dec = DecState.reset dc := by
  obtain ⟨ec, rfl⟩ | ⟨p, rest, rfl, hin, hstep⟩ := h
  · rfl
  · cases (step_of_reset_pulse p .decoder rest hin).symm.trans hstep
    rfl

/-- Settles O40: with the metrics and `D_FAULT` at 0 the commands answer as they do in any state. -/
theorem decoderResetState : Obligations.DecoderResetState := by
  intro dc s h
  have hreset := dec_eq_reset_of_origin dc s h
  have hcomp : s.dec.comp = 0 := by rw [hreset]; rfl
  have huncomp : s.dec.uncomp = 0 := by rw [hreset]; rfl
  have hfault : s.dec.fault = 0 := by rw [hreset]; rfl
  obtain ⟨hgetUsize, hgetCsize, hgetStatus⟩ := decoderSizesAndStatusAnswer s
  rw [huncomp] at hgetUsize
  rw [hcomp] at hgetCsize
  rw [hfault] at hgetStatus
  have hgetRatio := (decoderRatioAnswers s).2 hcomp
  refine ⟨?_, ?_, ?_, ?_, ?_, hfault, hcomp, huncomp, ?_, hgetUsize, hgetCsize, hgetRatio, hgetStatus⟩
  all_goals rw [hreset]; rfl

end Sys2Proof.Machine
end

/-! ## A turn of a running `DECOMPRESS` (R73, R138)

The bytes left are what decreases. The answer a decoder holds while an operation runs is no part of the invariant, so
the turns are followed themselves, and not through the loop of R73, which starts without one. -/

section
namespace Sys2Proof.Machine

/-- What a turn of the operation `a` leads to: the operation is over and answered, or it has fewer bytes left. -/
def Decoding.TurnsTo (a : Decoding) (d : DecState) : Prop :=
  (d.active = none ∧ d.rsp.isSome = true) ∨ ∃ b, d.active = some b ∧ b.len - b.pos < a.len - a.pos

/-- A sticky fault ends the operation with its answer (R117). -/
theorem takeFault_sticky_turnsTo (s : State) (a : Decoding) (f : FaultReport) (ha : s.dec.active = some a)
    (hf : sticky f.status = true) : a.TurnsTo (s.takeFault .decoder f).dec := by
  rw [takeFault_decoder_sticky f s a hf ha]
  exact .inl ⟨rfl, rfl⟩

/-- The end of the chunk ends the operation with its answer (R85). -/
theorem endOfChunk_turnsTo (s : State) (a : Decoding) (ha : s.dec.active = some a) :
    a.TurnsTo (s.endOfChunk a).dec := by
  obtain ⟨-, hx⟩ | ⟨-, hx⟩ := endOfChunk_cases s a
  · rw [hx]
    exact .inl ⟨rfl, rfl⟩
  · rw [hx]
    exact takeFault_sticky_turnsTo s a _ ha rfl

/-- A form takes at least one byte, or raises a sticky fault (R44, R106). -/
theorem exec_form_turnsTo (i : Instr) (f : Form) (s t : State) (a : Decoding) (hf : formOf i = some f)
    (ha : s.dec.active = some a) (hpos : a.pos < a.len) (h : exec i s = .next t) : a.TurnsTo t.dec := by
  obtain ⟨value, hx, hsticky⟩ := exec_form i f s hf
  rw [hx] at h
  obtain ⟨-, hy⟩ | ⟨b, v, hb, -, hy⟩ | ⟨b, e, hb, he, hy⟩ := executeForm_cases (formLength f) value s
  all_goals cases hy.symm.trans h
  · obtain rfl : a = b := Option.some.inj (ha.symm.trans hb)
    have hlen := formLength_pos f
    refine .inr ⟨_, commit_active v _ a s, ?_⟩
    rw [advance_len, advance_pos]
    omega
  · exact takeFault_sticky_turnsTo s a e ha (hsticky e he)

/-- With nothing presented, the step of a running `DECOMPRESS` is such a turn (R73). -/
theorem step_turnsTo (s t : State) (a : Decoding) (hin : s.inputs = []) (ha : s.dec.active = some a)
    (h : step s = .next t) : a.TurnsTo t.dec := by
  rw [step_of_running s a hin ha] at h
  obtain ⟨-, hx⟩ | ⟨hpos, bs, i, hbs, hi, hx⟩ | ⟨-, _, _, -, -, hx⟩ | ⟨-, -, hx⟩ := fetchForm_cases s a
  all_goals rw [hx] at h
  · cases h
    exact endOfChunk_turnsTo s a ha
  · obtain ⟨f, hf, -⟩ := form_bytes_present a _ bs i hpos hbs hi
    exact exec_form_turnsTo i f s t a hf ha hpos h
  · cases h
    exact takeFault_sticky_turnsTo s a _ ha rfl
  · cases h

/-- A step presents nothing by itself (R100). -/
theorem step_inputs_nil (s t : State) (hin : s.inputs = []) (h : step s = .next t) : t.inputs = [] := by
  obtain ⟨b, rest, hrest | ⟨i, hcons⟩, hc⟩ := step_confined s t h
  · exact hc.inputs.trans (hrest.symm.trans hin)
  · cases hin.symm.trans hcons

end Sys2Proof.Machine
end

/-! ## A running `DECOMPRESS` ends (R138) -/

section
namespace Sys2Proof.Machine

/-- More steps than bytes are left lead to the answer. -/
theorem runFor_ends (k : Nat) (s : State) (a : Decoding) (hs : s.Inv) (hin : s.inputs = [])
    (ha : s.dec.active = some a) (hk : a.len - a.pos < k) :
    ∃ t, runFor k s = .next t ∧ t.dec.active = none ∧ t.dec.rsp.isSome = true := by
  induction k generalizing s a with
  | zero => exact absurd hk (Nat.not_lt_zero _)
  | succ k ih =>
    obtain ⟨t, hstep⟩ := everyStepFromTheInvariantCompletes s hs
    have htin := step_inputs_nil s t hin hstep
    obtain ⟨hidle, hanswer⟩ | ⟨b, hb, hfewer⟩ := step_turnsTo s t a hin ha hstep
    · exact ⟨t, runFor_of_ending_step k s t hstep htin hidle, hidle, hanswer⟩
    · rw [runFor_succ_of_step k s t hstep]
      exact ih t b (stepKeepsTheInvariant s t hs hstep) htin hb (by omega)

/-- Settles O46: every turn that does not end the operation leaves fewer bytes, by induction on the steps. -/
theorem decompressTerminates : Obligations.DecompressTerminates :=
  fun s a hs hin ha => runFor_ends _ s a hs hin ha (Nat.lt_succ_self _)

end Sys2Proof.Machine
end

/-! ## The spec's example words (R57, R64 to R70) -/

section
namespace Sys2Proof.Machine

/-- The bytes that encode an instruction of the variant decode to it (R45 to R51, R53). -/
theorem decodeForm_of_encode_eq (v : Variant) (i : Instr) (bs : List Byte) (hwf : WellFormed v 0 i = true)
    (henc : encode i = .form bs) : decodeForm v bs = .ok i := by
  have hdec := decodeInvertsEncode v 0 i hwf
  rwa [henc] at hdec

/-- Settles O5: each example word is laid out as the encoding of its instruction, which exists in the variant, so it
decodes to that instruction. -/
theorem exampleWordsDecode : Obligations.ExampleWordsDecode := by
  refine ⟨?raw, ?v1d3, ?v2d2, ?v2d3, ?v3d1, ?v3d2, ?v3d3⟩
  case raw => exact decodeForm_of_encode_eq .v1 (.raw 100) _ rfl rfl
  case v1d3 => exact decodeForm_of_encode_eq .v1 (.v1d3 false 1) _ rfl rfl
  case v2d2 => exact decodeForm_of_encode_eq .v2 (.v2d2 true 1) _ rfl rfl
  case v2d3 => exact decodeForm_of_encode_eq .v2 (.v2d3 false 8192) _ rfl rfl
  case v3d1 => exact decodeForm_of_encode_eq .v3 (.v3d1 true 5) _ rfl rfl
  case v3d2 => exact decodeForm_of_encode_eq .v3 (.v3d2 false 32) _ rfl rfl
  case v3d3 => exact decodeForm_of_encode_eq .v3 (.v3d3 true 49895) _ rfl rfl

end Sys2Proof.Machine
end
